-- ==== Sys2Proof/Word.lean ====
section
/-!
DEFINITION. The word types of the block: a byte (spec/00_scope.md rule R11) and the 32-bit command word
(spec/30_encoding.md rule R60).
-/

namespace Sys2Proof

/-- A byte: "A byte is 8 bits, unsigned, 0..255" (R11). -/
abbrev Byte := BitVec 8

/-- A 32-bit command word (R60), register value (R29) or CRC register (R130). -/
abbrev Word := BitVec 32

end Sys2Proof
end

