-- ==== Sys2Proof/Machine/Bytes.lean ====
section
/-!
DEFINITION. Byte order: the little-endian fields of spec/00_scope.md rule R12 and spec/20_memory.md rule R42, in both
directions.
-/

namespace Sys2Proof

/-- `s[i]` (R12). Every use is at an index below `len(s)`; past it the value is 0, which no rule reads (log entry 12). -/
def byteAt (s : List Byte) (i : Nat) : Byte := s.getD i 0

/-- `LE16(s, o) = s[o] + 256*s[o+1]` (R12). -/
def le16 (s : List Byte) (o : Nat) : BitVec 16 :=
  byteAt s (o + 1) ++ byteAt s o

/-- `LE32(s, o) = sum_{k<4} s[o+k] * 2^(8k)` (R12). -/
def le32 (s : List Byte) (o : Nat) : BitVec 32 :=
  le16 s (o + 2) ++ le16 s o

/-- `LE64(s, o) = sum_{k<8} s[o+k] * 2^(8k)` (R12). -/
def le64 (s : List Byte) (o : Nat) : BitVec 64 :=
  le32 s (o + 4) ++ le32 s o

/-- `bytesLE16(v)`, "the least significant byte first" (R12). -/
def bytesLE16 (v : BitVec 16) : List Byte :=
  [v.extractLsb' 0 8, v.extractLsb' 8 8]

/-- `bytesLE32(v)` (R12). -/
def bytesLE32 (v : BitVec 32) : List Byte :=
  bytesLE16 (v.extractLsb' 0 16) ++ bytesLE16 (v.extractLsb' 16 16)

/-- `bytesLE64(v)` (R12). -/
def bytesLE64 (v : BitVec 64) : List Byte :=
  bytesLE32 (v.extractLsb' 0 32) ++ bytesLE32 (v.extractLsb' 32 32)

end Sys2Proof
end

