-- ==== Sys2Proof/Syntax.lean ====
section
/-!
DEFINITION. The command set, "version 1 of the block command set" (spec/00_scope.md rule R1): one constructor for each
mnemonic of spec/opcode_table.json (spec/30_encoding.md rule R62), the register names of REG_READ
(spec/10_state.md rule R29), and the names by which the decoder rejects a word.
-/

namespace Sys2Proof

/-- The seven readable registers, numbers 0 to 6 in this order (R29). -/
inductive Reg where
  | capacity
  | head
  | tail
  | fullReg
  | sizeReg
  | freeReg
  | status
  deriving DecidableEq, Repr

/-- A command (R62). A carrying command holds its data bytes `d`; its operand `n` is their number (R65). -/
inductive Instr where
  /-- `0x00` (R200) -/
  | nop
  /-- `0x01`, `n` data bytes (R100) -/
  | rbPush (d : List Byte)
  /-- `0x02` (R103) -/
  | rbPeek (len : BitVec 16)
  /-- `0x03` (R105) -/
  | rbRead (len : BitVec 16)
  /-- `0x04` (R108) -/
  | rbConsume (len : BitVec 16)
  /-- `0x05` (R111) -/
  | rbSize
  /-- `0x06` (R112) -/
  | rbFree
  /-- `0x07` (R113) -/
  | rbCap
  /-- `0x10`, `n` data bytes (R134) -/
  | crcCompute (d : List Byte)
  /-- `0x11`, `n` data bytes (R135) -/
  | crcValidate (d : List Byte)
  /-- `0x20` (R150) -/
  | parseDrain
  /-- `0x30` (R191) -/
  | buildHeartbeat (seq : BitVec 16)
  /-- `0x40`, `SUB = r` (R201): the table's seven REG_READ rows are its seven registers -/
  | regRead (r : Reg)
  /-- `0xF0` (R203) -/
  | reset
  deriving DecidableEq, Repr

/-- Why a command is not a legal instruction. -/
inductive DecodeError where
  /-- the number of data bytes is not the one the word requires: the transcriber refuses the pair (R66) -/
  | dataLength
  /-- on a byte-wide port, fewer bytes than the command is long (R67) -/
  | truncated
  /-- `OPC` is not in the table of R62: illegal (R63) -/
  | reservedOpcode
  /-- `SUB` is not 0 where R62 says 0: illegal (R63) -/
  | reservedSub
  /-- `IMM` is not 0 where R62 says 0: illegal (R63) -/
  | reservedImm
  /-- REG_READ of a register number 7 to 255: illegal (R29, R63) -/
  | reservedRegister
  deriving DecidableEq, Repr

end Sys2Proof
end

