-- ==== Sys2Proof/WellFormed.lean ====
section
/-!
DEFINITION. Which commands exist: the only bound the syntax does not carry in its types is the number of data bytes,
`n = IMM`, 0..65535 (spec/00_scope.md rule R9 `IMM_MAX`, spec/30_encoding.md rules R60 and R65).
-/

namespace Sys2Proof

/-- The data bytes fit the length operand (R65: exactly `IMM` data bytes; `IMM_MAX = 65535`, R9). -/
def fitsImm (d : List Byte) : Bool := decide (d.length ≤ 65535)

/-- A command that some command word encodes. -/
def Instr.wf : Instr → Bool
  | .rbPush d => fitsImm d
  | .crcCompute d => fitsImm d
  | .crcValidate d => fitsImm d
  | .nop => true
  | .rbPeek _ => true
  | .rbRead _ => true
  | .rbConsume _ => true
  | .rbSize => true
  | .rbFree => true
  | .rbCap => true
  | .parseDrain => true
  | .buildHeartbeat _ => true
  | .regRead _ => true
  | .reset => true

end Sys2Proof
end

