-- ==== Sys2Proof/Decode.lean ====
section
/-!
DEFINITION. The command word and its decoder (spec/30_encoding.md rules R60 to R67), and after it the encoder.
-/

namespace Sys2Proof

/-! ## The fields of the word (R60) -/

/-- `OPC`, bits 31:24 (R60). -/
def opcOf (w : Word) : BitVec 8 := w.extractLsb' 24 8

/-- `SUB`, bits 23:16 (R60). -/
def subOf (w : Word) : BitVec 8 := w.extractLsb' 16 8

/-- `IMM`, bits 15:0 (R60). -/
def immOf (w : Word) : BitVec 16 := w.extractLsb' 0 16

/-- "RB_PUSH, CRC_COMPUTE and CRC_VALIDATE carry exactly `IMM` data bytes"; "Every other opcode, and every reserved
opcode, carries none" (R65). -/
def carriesData (opc : BitVec 8) : Bool :=
  opc == 0x01 || opc == 0x10 || opc == 0x11

/-- How many data bytes follow the word: it "follows from `OPC` and `IMM` alone" (R65, R67). -/
def dataLength (w : Word) : Nat :=
  if carriesData (opcOf w) then (immOf w).toNat else 0

/-! ## Decoding a transaction, the pair (word, data) of R66 -/

/-- The register of a REG_READ number (R29): "Every register number from 7 to 255 is reserved". -/
def regOf (sub : BitVec 8) : Option Reg :=
  match sub.toNat with
  | 0 => some .capacity
  | 1 => some .head
  | 2 => some .tail
  | 3 => some .fullReg
  | 4 => some .sizeReg
  | 5 => some .freeReg
  | 6 => some .status
  | _ => none

/-- A word whose `SUB` must be 0 (R63). -/
def withSubZero (w : Word) (r : Except DecodeError Instr) : Except DecodeError Instr :=
  if subOf w = 0 then r else .error .reservedSub

/-- A word whose `IMM` must be 0 (R63). -/
def withImmZero (w : Word) (r : Except DecodeError Instr) : Except DecodeError Instr :=
  if immOf w = 0 then r else .error .reservedImm

/-- The opcode map of R62 with the legality conditions of R63. -/
def decodeWord (w : Word) (d : List Byte) : Except DecodeError Instr :=
  match (opcOf w).toNat with
  | 0x00 => withSubZero w (withImmZero w (.ok .nop))
  | 0x01 => withSubZero w (.ok (.rbPush d))
  | 0x02 => withSubZero w (.ok (.rbPeek (immOf w)))
  | 0x03 => withSubZero w (.ok (.rbRead (immOf w)))
  | 0x04 => withSubZero w (.ok (.rbConsume (immOf w)))
  | 0x05 => withSubZero w (withImmZero w (.ok .rbSize))
  | 0x06 => withSubZero w (withImmZero w (.ok .rbFree))
  | 0x07 => withSubZero w (withImmZero w (.ok .rbCap))
  | 0x10 => withSubZero w (.ok (.crcCompute d))
  | 0x11 => withSubZero w (.ok (.crcValidate d))
  | 0x20 => withSubZero w (withImmZero w (.ok .parseDrain))
  | 0x30 => withSubZero w (.ok (.buildHeartbeat (immOf w)))
  | 0x40 =>
    withImmZero w
      (match regOf (subOf w) with
       | some r => .ok (.regRead r)
       | none => .error .reservedRegister)
  | 0xF0 => withSubZero w (withImmZero w (.ok .reset))
  | _ => .error .reservedOpcode

/-- A transaction: the transcriber's check of the data length first (R66), then the word. -/
def decodeCommand (w : Word) (d : List Byte) : Except DecodeError Instr :=
  if d.length = dataLength w then decodeWord w d else .error .dataLength

/-! ## Decoding bytes (R60: "sent little-endian: bits 7:0 first"; R67) -/

/-- The first command of a byte stream: its word, its data bytes, and the bytes after it (R67). -/
def splitCommand (bs : List Byte) : Option (Word × List Byte × List Byte) :=
  if bs.length < 4 then none
  else
    let w := le32 bs 0
    let rest := bs.drop 4
    if rest.length < dataLength w then none
    else some (w, rest.take (dataLength w), rest.drop (dataLength w))

/-- The first command of a byte stream and the bytes after it, or why there is none. -/
def decode (bs : List Byte) : Except DecodeError (Instr × List Byte) :=
  match splitCommand bs with
  | none => .error .truncated
  | some (w, d, rest) =>
    match decodeCommand w d with
    | .ok i => .ok (i, rest)
    | .error e => .error e

/-! ## Encoding (R60, R62) -/

/-- The word with the fields `OPC`, `SUB`, `IMM` (R60). -/
def wordOf (opc sub : BitVec 8) (imm : BitVec 16) : Word := (opc ++ sub) ++ imm

/-- The number of a register (R29). -/
def regNumber : Reg → BitVec 8
  | .capacity => 0
  | .head => 1
  | .tail => 2
  | .fullReg => 3
  | .sizeReg => 4
  | .freeReg => 5
  | .status => 6

/-- The length operand of a carrying command: `IMM = len(list)` (R65, R68). -/
def lengthImm (d : List Byte) : BitVec 16 := BitVec.ofNat 16 d.length

/-- The command word of an instruction (R62). -/
def encodeWord : Instr → Word
  | .nop => wordOf 0x00 0 0
  | .rbPush d => wordOf 0x01 0 (lengthImm d)
  | .rbPeek len => wordOf 0x02 0 len
  | .rbRead len => wordOf 0x03 0 len
  | .rbConsume len => wordOf 0x04 0 len
  | .rbSize => wordOf 0x05 0 0
  | .rbFree => wordOf 0x06 0 0
  | .rbCap => wordOf 0x07 0 0
  | .crcCompute d => wordOf 0x10 0 (lengthImm d)
  | .crcValidate d => wordOf 0x11 0 (lengthImm d)
  | .parseDrain => wordOf 0x20 0 0
  | .buildHeartbeat seq => wordOf 0x30 0 seq
  | .regRead r => wordOf 0x40 (regNumber r) 0
  | .reset => wordOf 0xF0 0 0

/-- The data bytes of an instruction (R65). -/
def encodeData : Instr → List Byte
  | .rbPush d => d
  | .crcCompute d => d
  | .crcValidate d => d
  | .nop => []
  | .rbPeek _ => []
  | .rbRead _ => []
  | .rbConsume _ => []
  | .rbSize => []
  | .rbFree => []
  | .rbCap => []
  | .parseDrain => []
  | .buildHeartbeat _ => []
  | .regRead _ => []
  | .reset => []

/-- The bytes of an instruction on a byte-wide port: the word little-endian, then the data (R60). -/
def encode (i : Instr) : List Byte := bytesLE32 (encodeWord i) ++ encodeData i

/-! ## The host's question about a table row -/

/-- The `n` low bytes of `w`, lowest first. -/
def tableBytes : Nat → Nat → List Byte
  | _, 0 => []
  | w, n + 1 => BitVec.ofNat 8 w :: tableBytes (w / 256) n

/-- The command word in the low 32 bits of a numbered row (bits above `nbits` are 0). -/
def tableWord (nbits w : Nat) : Word := BitVec.ofNat 32 (w % 2 ^ nbits)

/-- The data bytes that follow that word: as many as it requires (R65), from bit 32 on, 0 above `nbits`. -/
def tableData (nbits w : Nat) : List Byte :=
  tableBytes (w % 2 ^ nbits / 2 ^ 32) (dataLength (tableWord nbits w))

/-- The instruction the decoder reads from an instruction whose bits are `w`, bit 0 the least significant bit of the
word, the data bytes counting on from bit 32. -/
def decodeTableWord (nbits w : Nat) : Option Instr :=
  match decode (bytesLE32 (tableWord nbits w) ++ tableData nbits w) with
  | .ok (i, []) => some i
  | _ => none

end Sys2Proof
end

