-- ==== Sys2Proof/Machine/Constants.lean ====
section
/-!
DEFINITION. The fixed constants of the block (spec/00_scope.md rule R9). `IMM_MAX` stands in WellFormed.lean.
-/

namespace Sys2Proof.Machine

/-- `MAGIC`, 16-bit. -/
def magic : BitVec 16 := 0xA55A

/-- `HDR`: the header size in bytes. -/
def hdr : Nat := 7

/-- `TRL`: the checksum trailer size in bytes. -/
def trl : Nat := 4

/-- `MINBUF = HDR + TRL`. -/
def minBuf : Nat := hdr + trl

/-- `REC`: one Finger Sample Record in bytes. -/
def recSize : Nat := 32

/-- `FS_FIXED`: timestamp and count of a finger-sample payload in bytes. -/
def fsFixed : Nat := 9

/-- `TYPE_FINGER`. -/
def typeFinger : BitVec 8 := 1

/-- `TYPE_HEARTBEAT`. -/
def typeHeartbeat : BitVec 8 := 2

/-- `HB_PAYLOAD`. -/
def hbPayload : List Byte := [0x01]

/-- `CRC_POLY`, reflected. -/
def crcPoly : Word := 0xEDB88320

/-- `CRC_INIT`. -/
def crcInit : Word := 0xFFFFFFFF

/-- `CRC_XOROUT`. -/
def crcXorOut : Word := 0xFFFFFFFF

end Sys2Proof.Machine
end

