-- ==== Sys2Proof/Config.lean ====
section
/-!
DEFINITION. What one implementation of the block fixes: the capacity `CAP` of the ring buffer
(spec/00_scope.md rule R8, the only parameter, rule R10).
-/

namespace Sys2Proof

/-- DESIGN CHOICE (log entry 1). The capacity less one. The spec gives no value ("OPEN: parameter", D12), so it is an
uninterpreted constant: its type allows exactly the capacities 1 to 2^32 - 1, and nothing in Lean can tell which it is. -/
opaque Config.capLessOne : Fin 4294967295

/-- `CAP`, `1 <= CAP <= 2^32 - 1` (R8). -/
def Config.cap : Nat := Config.capLessOne.val + 1

end Sys2Proof
end

