-- ==== Sys2Proof/Machine/State.lean ====
section
/-!
DEFINITION. The state of the block (spec/10_state.md), the typed values on its ports (spec/30_encoding.md rules R75 to
R80), and the reasons a step can stop.
-/

namespace Sys2Proof.Machine

/-- The status of a response (R75). -/
inductive Status where
  | ok
  | insufficient
  | faulted
  | illegal
  | overrun
  | unsettled
  deriving DecidableEq, Repr

/-- The causes of a fault (spec/60_exceptions.md rule R221). -/
inductive Cause where
  | illegalCommand
  | consumeOverrun
  | zeroConsumeFull
  deriving DecidableEq, Repr

/-- A response: a status, then data bytes (R76). -/
structure Response where
  status : Status
  data   : List Byte
  deriving DecidableEq, Repr

/-- A Finger Sample Record, "the raw little-endian fields of rule R73" (R80); no float is interpreted (R163). -/
structure Record where
  x     : BitVec 64
  y     : BitVec 64
  z     : BitVec 64
  state : BitVec 32
  temp  : BitVec 32
  deriving DecidableEq, Repr

/-- An event on the event port (R80). -/
inductive Event where
  /-- `FingerSample(seq, timestamp, records)` -/
  | fingerSample (seq : BitVec 16) (timestamp : BitVec 64) (records : List Record)
  /-- `Unknown(type, seq, payload)` -/
  | unknown (type : BitVec 8) (seq : BitVec 16) (payload : List Byte)
  deriving DecidableEq, Repr

/-- A PARSE_DRAIN holding on the event port (spec/70_reset_and_hazards.md rule R266): the event on offer (R31), and the
value of its local `events` (R150), the events it emitted before this one. -/
structure Hold where
  event   : Event
  emitted : Nat
  deriving DecidableEq, Repr

/-- What the host does with the block (R262). -/
inductive HostMove where
  /-- it issues a command, the pair (word, data) of R66 -/
  | command (word : Word) (data : List Byte)
  /-- it accepts the offered event -/
  | acceptEvent
  /-- it asserts the reset input -/
  | resetInput
  deriving DecidableEq, Repr

/-- Why the model stops. Neither reason is the block's own fault: those are next states (R220). -/
inductive Fault where
  /-- Raised by RB_PUSH when `HEAD` is not an index of the storage, `HEAD >= CAP`. Safe: R22 rules such states out, and no
  run reaches one (log entry 9). -/
  | storageIndex
  /-- Raised by a drain that has run `SIZE + 1` iterations without stopping or emitting. Safe: R161 rules it out in every
  state that meets R25, and no run reaches one (log entry 10). -/
  | drainUnfinished
  deriving DecidableEq, Repr

/-- Why the model refuses. -/
inductive Refusal where
  /-- Raised by exec alone, for an instruction without a meaning. Safe. -/
  | notModelled (mnemonic : String)
  /-- Raised by the transcriber for a command whose data length is not the one its word requires: "Such a pair never
  reaches the block" (R66). It errs toward proving (R264, log entry 8), so it is unsafe for a claim about such a host. -/
  | dataLength
  /-- Raised for "a command issued before" the first reset: the model "refuses such a run" (R254). Safe. -/
  | beforeFirstReset
  deriving DecidableEq, Repr

/-- The state of the block, and the host's side of its ports (log entry 3). -/
structure State where
  /-- `CAP`, the capacity: a parameter "fixed before reset and never changed" (R8) -/
  cap         : Nat
  /-- `MEM[0..CAP)` (R22): the bytes that differ from the unlisted value, by rising index -/
  mem         : List Host.Cell
  /-- `HEAD`, the write index (R22) -/
  head        : Nat
  /-- `TAIL`, the read index (R22) -/
  tail        : Nat
  /-- `FULL` (R22) -/
  full        : Bool
  /-- `STATUS` (R27) -/
  status      : Word
  /-- the event port and the PARSE_DRAIN that holds on it (R31, R266); none: the port is empty -/
  hold        : Option Hold
  /-- MODEL'S OWN (R254): the reset input has been asserted -/
  initialised : Bool
  /-- MODEL'S OWN (R250, R269): the reset input abandoned the last command taken, a PARSE_DRAIN on hold, so that it "never
  responds" -/
  abandoned   : Bool
  /-- MODEL'S OWN (R262): what the host does next, oldest first -/
  moves       : List HostMove
  /-- MODEL'S OWN (R269): "the list of responses, in command order" -/
  responses   : List Response
  /-- MODEL'S OWN (R269): "the list of events delivered, in delivery order" -/
  events      : List Event
  deriving DecidableEq, Repr

/-- The state right after reset of a block of capacity `cap` (R35): nothing is listed in memory, no host move is pending,
and no response or event has been given. -/
def State.resetAt (cap : Nat) : State where
  cap         := cap
  mem         := []
  head        := 0
  tail        := 0
  full        := false
  status      := 0
  hold        := none
  initialised := true
  abandoned   := false
  moves       := []
  responses   := []
  events      := []

/-- The machine right after reset (R35), at the capacity of this block. -/
def State.reset : State := State.resetAt Config.cap

end Sys2Proof.Machine
end

