-- ==== Sys2Proof/Machine/Flags.lean ====
section
/-!
DEFINITION. The two flags of the block (spec/10_state.md rule R32): `FULL`, and `STATUS` with its fields `FAULT` and
`CAUSE` (R27, R28).
-/

namespace Sys2Proof.Machine

/-- `STATUS.FAULT`, bit 0 (R27). -/
def State.faulted (s : State) : Bool := s.status.getLsbD 0

/-- `STATUS.CAUSE`, bits 7:4 (R27). -/
def State.cause (s : State) : BitVec 4 := s.status.extractLsb' 4 4

/-- The code of a cause (spec/60_exceptions.md rule R221). -/
def Cause.code : Cause → BitVec 4
  | .illegalCommand => 1
  | .consumeOverrun => 2
  | .zeroConsumeFull => 3

/-- `STATUS` with `FAULT = 1` and a cause, every reserved bit 0 (R27). -/
def statusOf (c : Cause) : Word := (c.code.setWidth 32 <<< 4) ||| 1

/-- The bits of `STATUS` that are not hardwired to 0: `CAUSE` and `FAULT` (R27). -/
def statusMask : Word := 0x000000F1

/-- What a read of `STATUS` returns: its reserved bits "read as 0" (R27). -/
def State.statusReg (s : State) : Word := s.status &&& statusMask

/-- The effect of a fault on `STATUS` (R220): the first cause is kept. -/
def statusAfterFault (s : State) (c : Cause) : Word :=
  if s.faulted then s.status else statusOf c

/-- `FULL` after one byte is pushed: `FULL <- (HEAD = TAIL)`, with the new indices (spec/40_ring_buffer.md rule R100). -/
def fullAfterPush (head tail : Nat) : Bool := decide (head = tail)

end Sys2Proof.Machine
end

