-- ==== Sys2Proof/Machine/Memory.lean ====
section
/-!
DEFINITION. The storage `MEM[0..CAP)` (spec/20_memory.md rules R40 and R43): byte cells by index, in one canonical form.
-/

namespace Sys2Proof.Machine

/-- DESIGN CHOICE (log entry 2). What an index that is not listed reads as. The spec leaves the storage unspecified after
reset and says no command returns such a byte (R33, R35). -/
def Memory.unlisted : Byte := 0

/-- `MemRead(i, 1)` (spec/00_scope.md rule R14). -/
def Memory.read : List Host.Cell → Nat → Byte
  | [], _ => Memory.unlisted
  | (a, b) :: rest, i => if a = i then b else Memory.read rest i

/-- The cell `(i, v)` in front of `rest`, or nothing where `v` is what an unlisted index reads as. -/
def Memory.cons (i : Nat) (v : Byte) (rest : List Host.Cell) : List Host.Cell :=
  if v = Memory.unlisted then rest else (i, v) :: rest

/-- `MemWrite(i, 1, v)` (R14), keeping the canonical form. -/
def Memory.write : List Host.Cell → Nat → Byte → List Host.Cell
  | [], i, v => Memory.cons i v []
  | (a, b) :: rest, i, v =>
    if a < i then (a, b) :: Memory.write rest i v
    else if a = i then Memory.cons i v rest
    else Memory.cons i v ((a, b) :: rest)

/-- The canonical form: every index is at least `low`, they rise strictly, and no cell holds the unlisted value. -/
def Memory.wfFrom : Nat → List Host.Cell → Bool
  | _, [] => true
  | low, (a, b) :: rest => decide (low ≤ a) && decide (b ≠ Memory.unlisted) && Memory.wfFrom (a + 1) rest

/-- The canonical form of a whole memory. -/
def Memory.wf (m : List Host.Cell) : Bool := Memory.wfFrom 0 m

/-- Every listed cell lies in the storage `0..CAP-1` (R40). -/
def Memory.within (cap : Nat) (m : List Host.Cell) : Bool := m.all fun c => decide (c.1 < cap)

end Sys2Proof.Machine
end

