-- ==== Sys2Proof/Machine/Ops.lean ====
section
/-!
DEFINITION. The named operations every meaning is written over: the derived quantities of the ring buffer
(spec/10_state.md rules R23 and R24), its three primitive effects (spec/40_ring_buffer.md rules R100, R103 and R108),
responding (spec/30_encoding.md rule R76), faulting (spec/60_exceptions.md rule R220), the admission check
(R223 step 1), and reset (R35).
-/

namespace Sys2Proof.Machine

/-- How a step of this machine ends. -/
abbrev Result := Host.Outcome State Fault Refusal

/-! ## The ring buffer -/

/-- `SIZE = if FULL then CAP else (HEAD - TAIL) mod CAP`, `HEAD - TAIL` taken as an integer (R23). -/
def State.size (s : State) : Nat :=
  if s.full then s.cap else (((s.head : Int) - (s.tail : Int)) % (s.cap : Int)).toNat

/-- `FREE = CAP - SIZE` (R23). -/
def State.free (s : State) : Nat := s.cap - s.size

/-- `content()`: the unread bytes, oldest first; position `i` is storage index `(TAIL + i) mod CAP` (R24, R41). -/
def State.content (s : State) : List Byte :=
  (List.range s.size).map fun i => Memory.read s.mem ((s.tail + i) % s.cap)

/-- `content()[0 .. len)` (R103). -/
def State.peek (s : State) (len : Nat) : List Byte := s.content.take len

/-- `TAIL <- (TAIL + len) mod CAP ; FULL <- 0` (R105, R108; spec/42_frame_parser.md rules R152 and R155). -/
def State.consume (s : State) (len : Nat) : State :=
  { s with tail := (s.tail + len) % s.cap, full := false }

/-- One byte of RB_PUSH (R100): write at `HEAD`; a full buffer drops its oldest byte; advance `HEAD`; set `FULL`. -/
def State.pushByte (s : State) (b : Byte) : State :=
  let tail := if s.full then (s.tail + 1) % s.cap else s.tail
  let head := (s.head + 1) % s.cap
  { s with mem := Memory.write s.mem s.head b, tail := tail, head := head, full := fullAfterPush head tail }

/-- RB_PUSH's loop, "one byte at a time, in order" (R100). -/
def State.push (s : State) (d : List Byte) : State := d.foldl State.pushByte s

/-- Whether RB_PUSH's writes stay in the storage: they start at `HEAD`, an index only when `HEAD < CAP` (R22). -/
def State.canPush (s : State) (d : List Byte) : Bool := d.isEmpty || decide (s.head < s.cap)

/-! ## Responses and faults -/

/-- The code of a response status (R75). -/
def Status.code : Status → Byte
  | .ok => 0x00
  | .insufficient => 0x01
  | .faulted => 0x02
  | .illegal => 0x03
  | .overrun => 0x04
  | .unsettled => 0x05

/-- A response as bytes: "a status byte (rule R75), then data bytes" (R76). -/
def Response.bytes (r : Response) : List Byte := r.status.code :: r.data

/-- `respond(status, data)` (spec/00_scope.md rule R14). -/
def State.respond (s : State) (status : Status) (data : List Byte) : State :=
  { s with responses := s.responses ++ [{ status := status, data := data }] }

/-- `respond(OK, bytesLE32(v))`, the response of every command that answers a number (R76; log entry 14). -/
def State.respondNat (s : State) (v : Nat) : State :=
  s.respond .ok (bytesLE32 (BitVec.ofNat 32 v))

/-- The response status of a cause (R221). -/
def Cause.response : Cause → Status
  | .illegalCommand => .illegal
  | .consumeOverrun => .overrun
  | .zeroConsumeFull => .unsettled

/-- TAKING A FAULT: `raise Fault(cause)` (R220). It records the cause if none is recorded, ends the command with the
cause's response and no data, and changes nothing else: "There is no vector, no handler address, no saved state and no
change of mode". Nothing returns from a fault (R227); only reset clears it. -/
def State.raise (s : State) (c : Cause) : State :=
  { s with status := statusAfterFault s c }.respond c.response []

/-- Step 1 of R223, which every command but REG_READ and RESET passes: while `STATUS.FAULT = 1` the response is `FAULTED`
and nothing changes. -/
def whenNotFaulted (s : State) (run : Result) : Result :=
  if s.faulted then .next (s.respond .faulted []) else run

/-- An illegal command word (R63) as R223 orders its checks: `FAULTED` first, unless `OPC` is REG_READ's or RESET's, then
`raise Fault(ILLEGAL_COMMAND)`. Its data bytes are discarded (R65). -/
def illegalCommand (opc : BitVec 8) (s : State) : Result :=
  if opc = 0x40 ∨ opc = 0xF0 then .next (s.raise .illegalCommand)
  else whenNotFaulted s (.next (s.raise .illegalCommand))

/-! ## Reset -/

/-- "the reset state of 10_state.md rule R35": `HEAD`, `TAIL`, `FULL` and `STATUS` 0, the event port emptied, `CAP`
unchanged (spec/70_reset_and_hazards.md rule R250). `MEM` is left unspecified: DESIGN CHOICE, nothing listed, as at
State.reset (log entry 2). -/
def State.applyReset (s : State) : State :=
  { s with mem := [], head := 0, tail := 0, full := false, status := 0, hold := none }

end Sys2Proof.Machine
end

