-- ==== Sys2Proof/Machine/Operands.lean ====
section
/-!
DEFINITION. The operand forms of a command (spec/30_encoding.md rule R61): `IMM` as an unsigned length, `IMM` as a
sequence number, attached data bytes, and the register number of REG_READ (spec/10_state.md rule R29). There is no other
form: "no register operands and no addressing modes".
-/

namespace Sys2Proof.Machine

/-- A length operand, `zext_32(IMM)`: "never sign-extended, scaled or shifted" (R61). -/
def lengthOperand (imm : BitVec 16) : Nat := imm.toNat

/-- `n`, the number of attached data bytes, which is `IMM` (R65). -/
def dataOperand (d : List Byte) : Nat := d.length

/-- The value of a register (R29, R201). -/
def State.readReg (s : State) : Reg → Word
  | .capacity => BitVec.ofNat 32 s.cap
  | .head => BitVec.ofNat 32 s.head
  | .tail => BitVec.ofNat 32 s.tail
  | .fullReg => if s.full then 1 else 0
  | .sizeReg => BitVec.ofNat 32 s.size
  | .freeReg => BitVec.ofNat 32 s.free
  | .status => s.statusReg

end Sys2Proof.Machine
end

