-- ==== Sys2Proof/Machine/Crc.lean ====
section
/-!
DEFINITION. The CRC-32 checker (spec/41_crc.md).
-/

namespace Sys2Proof.Machine

/-- One turn of the inner loop of R130: `if c[0] = 1 then (c >> 1) xor 0xEDB88320 else c >> 1`. -/
def crcBit (c : Word) : Word :=
  if c.getLsbD 0 then (c >>> 1) ^^^ crcPoly else c >>> 1

/-- `crcBit` repeated. -/
def crcBits : Nat → Word → Word
  | 0, c => c
  | n + 1, c => crcBits n (crcBit c)

/-- One turn of the outer loop of R130: the "byte enters at bits 7:0", then eight turns of the inner loop. -/
def crcByte (c : Word) (b : Byte) : Word := crcBits 8 (c ^^^ b.setWidth 32)

/-- `crc32(s)` (R130). -/
def crc32 (s : List Byte) : Word := s.foldl crcByte crcInit ^^^ crcXorOut

/-- `crc_ok(f)` (R133). -/
def crcOk (f : List Byte) : Bool :=
  decide (4 ≤ f.length) && crc32 (f.take (f.length - 4)) == le32 f (f.length - 4)

/-- CRC_COMPUTE (R134): "works on its own data bytes only". -/
def execCrcCompute (d : List Byte) (s : State) : Result :=
  whenNotFaulted s (.next (s.respond .ok (bytesLE32 (crc32 d))))

/-- CRC_VALIDATE (R135): it "checks only the trailer". -/
def execCrcValidate (d : List Byte) (s : State) : Result :=
  whenNotFaulted s <|
    .next <|
      if dataOperand d < 4 then s.respond .insufficient []
      else s.respond .ok [if crcOk d then 0x01 else 0x00]

end Sys2Proof.Machine
end

