-- ==== Sys2Proof/Machine/Builder.lean ====
section
/-!
DEFINITION. The frame builder (spec/43_frame_builder.md).
-/

namespace Sys2Proof.Machine

/-- The header and payload of a frame, the `body` of R190. -/
def frameBody (type : BitVec 8) (seq : BitVec 16) (payload : List Byte) : List Byte :=
  bytesLE16 magic ++ bytesLE16 (BitVec.ofNat 16 payload.length) ++ bytesLE16 seq ++ [type] ++ payload

/-- `encode_frame(type, seq, payload)`, for `len(payload) <= 65535` (R190). -/
def encodeFrame (type : BitVec 8) (seq : BitVec 16) (payload : List Byte) : List Byte :=
  frameBody type seq payload ++ bytesLE32 (crc32 (frameBody type seq payload))

/-- `heartbeat_frame(seq) = encode_frame(2, seq, [0x01])` (R191). -/
def heartbeatFrame (seq : BitVec 16) : List Byte := encodeFrame typeHeartbeat seq hbPayload

/-- BUILD_HEARTBEAT (R191): "The command reads and writes no state". -/
def execBuildHeartbeat (seq : BitVec 16) (s : State) : Result :=
  whenNotFaulted s (.next (s.respond .ok (heartbeatFrame seq)))

end Sys2Proof.Machine
end

