-- ==== Sys2Proof/Machine/Control.lean ====
section
/-!
DEFINITION. The control commands (spec/44_control.md).
-/

namespace Sys2Proof.Machine

/-- NOP (R200). -/
def execNop (s : State) : Result :=
  whenNotFaulted s (.next (s.respond .ok []))

/-- REG_READ (R201): "carried out while `STATUS.FAULT = 1`". -/
def execRegRead (r : Reg) (s : State) : Result :=
  .next (s.respond .ok (bytesLE32 (s.readReg r)))

/-- RESET (R203): carried out while `STATUS.FAULT = 1`, and "the only command that clears a fault". -/
def execReset (s : State) : Result :=
  .next (s.applyReset.respond .ok [])

end Sys2Proof.Machine
end

