-- ==== Sys2Proof/Machine/Parser.lean ====
section
/-!
DEFINITION. The frame parser (spec/42_frame_parser.md): one iteration of the drain loop as the pseudocode of R150 gives
it, the loop, the hold on the event port (spec/70_reset_and_hazards.md rule R266), and PARSE_DRAIN.
-/

namespace Sys2Proof.Machine

/-- The phases of one drain (spec/10_state.md rule R30). -/
inductive Phase where
  | seekMagic
  | awaitFullFrame
  | validateCrc
  | dispatch
  deriving DecidableEq, Repr

/-- The labels of the drain's silent discards (R164): "not observable" (spec/60_exceptions.md rule R226). -/
inductive Discard where
  | resync
  | crcDiscard
  | shortDiscard
  | malformedDiscard
  deriving DecidableEq, Repr

/-- How one iteration of the loop ends. -/
inductive Iteration where
  /-- the loop stops, from `SEEK_MAGIC` (R151) or `AWAIT_FULL_FRAME` (R154) -/
  | stop (phase : Phase)
  /-- bytes are consumed and nothing is emitted (R152, R155 to R157) -/
  | discard (why : Discard) (s : State)
  /-- a frame is consumed and its event emitted (R158, R159) -/
  | emit (e : Event) (s : State)
  deriving DecidableEq, Repr

/-- `record(p, o)` (R158). -/
def recordAt (p : List Byte) (o : Nat) : Record where
  x     := le64 p o
  y     := le64 p (o + 8)
  z     := le64 p (o + 16)
  state := le32 p (o + 24)
  temp  := le32 p (o + 28)

/-- `[ record(p, 9 + 32*i) | i in 0 .. count-1 ]` (R158). -/
def recordsOf (p : List Byte) (count : Nat) : List Record :=
  (List.range count).map fun i => recordAt p (fsFixed + recSize * i)

/-- `p <- f[7 .. 7 + psize)` (R150). -/
def payloadOf (f : List Byte) (psize : Nat) : List Byte := (f.drop hdr).take psize

/-- Phase `DISPATCH` (R156 to R159): the event of a frame that passed its CRC check, or why it has none. -/
def dispatch (type : BitVec 8) (seq : BitVec 16) (psize : Nat) (p : List Byte) : Except Discard Event :=
  if type = typeFinger then
    if psize < fsFixed then .error .shortDiscard
    else
      let count := (byteAt p 8).toNat
      if psize < fsFixed + recSize * count then .error .malformedDiscard
      else .ok (.fingerSample seq (le64 p 0) (recordsOf p count))
  else .ok (.unknown type seq p)

/-- One iteration of the loop of R150, its checks in the order of spec/60_exceptions.md rule R225. -/
def iterate (s : State) : Iteration :=
  if s.size < minBuf then .stop .seekMagic
  else
    let h := s.peek hdr
    if le16 h 0 ≠ magic then .discard .resync (s.consume 1)
    else
      let psize := (le16 h 2).toNat
      let total := hdr + psize + trl
      if s.size < total then .stop .awaitFullFrame
      else
        let f := s.peek total
        let s' := s.consume total
        if crcOk f then
          match dispatch (byteAt h 6) (le16 h 4) psize (payloadOf f psize) with
          | .ok e => .emit e s'
          | .error why => .discard why s'
        else .discard .crcDiscard s'

/-- The loop of R150 with `emitted` events behind it, for at most `fuel` iterations. It ends by a stop, with the response,
or by an emit, with the event on offer and the drain on hold (R266). -/
def drain : Nat → Nat → State → Result
  | 0, _, _ => .fault .drainUnfinished
  | fuel + 1, emitted, s =>
    match iterate s with
    | .stop _ => .next (s.respondNat emitted)
    | .discard _ s' => drain fuel emitted s'
    | .emit e s' => .next { s' with hold := some { event := e, emitted := emitted } }

/-- "the loop runs at most `s0 + 1` iterations" (R161). -/
def runDrain (emitted : Nat) (s : State) : Result := drain (s.size + 1) emitted s

/-- PARSE_DRAIN (R150). -/
def execParseDrain (s : State) : Result :=
  whenNotFaulted s (runDrain 0 s)

/-- The host accepts the offered event: it is delivered, and "the drain continues from the step after the `emit`" (R266),
which is `events <- events + 1` (R150). With nothing on offer an acceptance has no effect (log entry 5). -/
def acceptOffered (s : State) : Result :=
  match s.hold with
  | none => .next s
  | some h => runDrain (h.emitted + 1) { s with hold := none, events := s.events ++ [h.event] }

/-- The phase the parser is in between two steps (R30): only a drain on hold is in one. -/
def State.phase (s : State) : Option Phase :=
  match s.hold with
  | none => none
  | some _ => some .dispatch

end Sys2Proof.Machine
end

