-- ==== Sys2Proof/Machine/RingBuffer.lean ====
section
/-!
DEFINITION. The ring buffer commands (spec/40_ring_buffer.md).
-/

namespace Sys2Proof.Machine

/-- RB_PUSH (R100): "RB_PUSH never fails and never signals an overwrite" (R102). -/
def execRbPush (d : List Byte) (s : State) : Result :=
  whenNotFaulted s <|
    if s.canPush d then .next ((s.push d).respond .ok []) else .fault .storageIndex

/-- RB_PEEK (R103): a shortfall is the response `INSUFFICIENT`, not a fault (R104). -/
def execRbPeek (len : BitVec 16) (s : State) : Result :=
  whenNotFaulted s <|
    let n := lengthOperand len
    .next (if s.size < n then s.respond .insufficient [] else s.respond .ok (s.peek n))

/-- What RB_READ and RB_CONSUME share: consuming `n <= SIZE` bytes with a response, but a consume of length 0 while
`FULL = 1` is a fault (R107). -/
def consumeWith (s : State) (n : Nat) (data : List Byte) : State :=
  if n = 0 ∧ s.full = true then s.raise .zeroConsumeFull
  else (s.consume n).respond .ok data

/-- RB_READ (R105): "peek + consume as one atomic logical step" (R106). -/
def execRbRead (len : BitVec 16) (s : State) : Result :=
  whenNotFaulted s <|
    let n := lengthOperand len
    .next (if s.size < n then s.respond .insufficient [] else consumeWith s n (s.peek n))

/-- RB_CONSUME (R108): more than is buffered is a fault (R109). -/
def execRbConsume (len : BitVec 16) (s : State) : Result :=
  whenNotFaulted s <|
    let n := lengthOperand len
    .next (if s.size < n then s.raise .consumeOverrun else consumeWith s n [])

/-- RB_SIZE (R111). -/
def execRbSize (s : State) : Result :=
  whenNotFaulted s (.next (s.respondNat s.size))

/-- RB_FREE (R112). -/
def execRbFree (s : State) : Result :=
  whenNotFaulted s (.next (s.respondNat s.free))

/-- RB_CAP (R113). -/
def execRbCap (s : State) : Result :=
  whenNotFaulted s (.next (s.respondNat s.cap))

end Sys2Proof.Machine
end

