-- ==== Sys2Proof/Machine/Dispatch.lean ====
section
/-!
DEFINITION. One arm per constructor of Instr: its meaning, or its rejection by name.
-/

namespace Sys2Proof.Machine

def exec (i : Instr) (s : State) : Host.Outcome State Fault Refusal :=
  match i with
  | .nop => Sys2Proof.Machine.execNop s
  | .rbPush d => Sys2Proof.Machine.execRbPush d s
  | .rbPeek len => Sys2Proof.Machine.execRbPeek len s
  | .rbRead len => Sys2Proof.Machine.execRbRead len s
  | .rbConsume len => Sys2Proof.Machine.execRbConsume len s
  | .rbSize => Sys2Proof.Machine.execRbSize s
  | .rbFree => Sys2Proof.Machine.execRbFree s
  | .rbCap => Sys2Proof.Machine.execRbCap s
  | .crcCompute d => Sys2Proof.Machine.execCrcCompute d s
  | .crcValidate d => Sys2Proof.Machine.execCrcValidate d s
  | .parseDrain => Sys2Proof.Machine.execParseDrain s
  | .buildHeartbeat seq => Sys2Proof.Machine.execBuildHeartbeat seq s
  | .regRead r => Sys2Proof.Machine.execRegRead r s
  | .reset => Sys2Proof.Machine.execReset s

end Sys2Proof.Machine
end

