-- ==== Sys2Proof/Machine/Port.lean ====
section
/-!
DEFINITION. The block's side of the host interface (spec/70_reset_and_hazards.md rule R262): which host move the block
takes next, and what it does with a command, an acceptance and the reset input.
-/

namespace Sys2Proof.Machine

/-- The first move that is no command, and the moves without it. -/
def firstSignal : List HostMove → Option (HostMove × List HostMove)
  | [] => none
  | .command w d :: rest =>
    match firstSignal rest with
    | none => none
    | some (m, rest') => some (m, .command w d :: rest')
  | .acceptEvent :: rest => some (.acceptEvent, rest)
  | .resetInput :: rest => some (.resetInput, rest)

/-- The move the block takes next, and the moves after it. While an event is on offer "no other command is taken" (R266):
commands wait at the port (R265; log entry 4). -/
def State.nextMove (s : State) : Option (HostMove × List HostMove) :=
  match s.hold with
  | some _ => firstSignal s.moves
  | none =>
    match s.moves with
    | [] => none
    | m :: rest => some (m, rest)

/-- A command at the port, the pair (word, data): the transcriber's check (R66), then the decoded instruction, or the
illegal word's fault (R63, R223). -/
def issue (w : Word) (d : List Byte) (s : State) : Result :=
  match decodeCommand w d with
  | .ok i => exec i s
  | .error .dataLength => .refused .dataLength
  | .error .truncated => .refused .dataLength
  | .error .reservedOpcode => illegalCommand (opcOf w) s
  | .error .reservedSub => illegalCommand (opcOf w) s
  | .error .reservedImm => illegalCommand (opcOf w) s
  | .error .reservedRegister => illegalCommand (opcOf w) s

/-- The reset input (R250): the reset state in one step; a drain on hold is abandoned, its event withdrawn, and it never
responds, which R269 asks of a run's end (log entry 20). It is the first reset too, before which no command is taken
(R254). -/
def assertReset (s : State) : State :=
  { s.applyReset with initialised := true, abandoned := s.initialised && (s.hold.isSome || s.abandoned) }

/-- What the block does with the move it takes. A command it takes is the last one, and nothing has abandoned it. -/
def takeMove (m : HostMove) (s : State) : Result :=
  match m with
  | .command w d => issue w d { s with abandoned := false }
  | .acceptEvent => acceptOffered s
  | .resetInput => .next (assertReset s)

/-- What the model does with a move before the first reset (R254): it refuses a command; only the reset input has an
effect. -/
def takeMoveBeforeReset (m : HostMove) (s : State) : Result :=
  match m with
  | .command _ _ => .refused .beforeFirstReset
  | .acceptEvent => .next s
  | .resetInput => .next (assertReset s)

/-- Before the first reset the state is unspecified (R254), so no event is on offer and moves are taken in order. -/
def stepBeforeReset (s : State) : Result :=
  match s.moves with
  | [] => .next s
  | m :: rest => takeMoveBeforeReset m { s with moves := rest }

/-- One step after the first reset: the next move and all it causes, up to the next hold or response. With no move to take
the block is idle, or the hold lasts; either way it keeps its state (spec/60_exceptions.md rule R235, R266). -/
def stepAfterReset (s : State) : Result :=
  match s.nextMove with
  | none => .next s
  | some (m, rest) => takeMove m { s with moves := rest }

/-- The host move that issues an instruction (R60, R65). -/
def moveOf (i : Instr) : HostMove := .command (encodeWord i) (encodeData i)

/-- RB_PUSH commands for a chunk, "of at most `IMM_MAX` bytes each, in stream order" (spec/30_encoding.md rule R69,
spec/00_scope.md rule R10). DESIGN CHOICE (log entry 19): a longer chunk is cut into full pieces of `IMM_MAX` bytes from the
front; the spec leaves open where it is cut. -/
def pushChunks : Nat → List Byte → List Instr
  | 0, _ => []
  | fuel + 1, chunk =>
    if chunk.length ≤ 65535 then [.rbPush chunk]
    else .rbPush (chunk.take 65535) :: pushChunks fuel (chunk.drop 65535)

/-- The pseudo-instruction `FEED [bytes]`: the pushes, then one PARSE_DRAIN (R69). -/
def feed (chunk : List Byte) : List Instr := pushChunks (chunk.length + 1) chunk ++ [.parseDrain]

/-- `s` with a command as its next move: nothing on offer and the first reset behind it, so that the block takes it. -/
def State.withCommand (s : State) (w : Word) (d : List Byte) : State :=
  { s with initialised := true, hold := none, moves := .command w d :: s.moves }

end Sys2Proof.Machine
end

