-- ==== Sys2Proof/Machine/Step.lean ====
section
/-!
DEFINITION. One step of the block, and the placing of one command as its next.
-/

namespace Sys2Proof.Machine

/-- One step: the block's next host move (spec/70_reset_and_hazards.md rules R254 and R262). -/
def step (s : State) : Host.Outcome State Fault Refusal :=
  if s.initialised then stepAfterReset s else stepBeforeReset s

/-- `s` with the instruction of a table row, its word and its data bytes, as the next command at the port. The block
fetches no instructions (spec/20_memory.md rule R53), so this stands for the host issuing it (log entry 7). -/
def State.withFetchWord (s : State) (nbits w : Nat) : State :=
  s.withCommand (tableWord nbits w) (tableData nbits w)

end Sys2Proof.Machine
end

