-- ==== Sys2Proof/Machine/EventPort.lean ====
section
/-!
DEFINITION. The event port as bytes (spec/30_encoding.md rule R81): how each event is serialised "When the event port
carries bytes".
-/

namespace Sys2Proof.Machine

/-- A record's "32 raw bytes" (R73, R81). -/
def Record.bytes (r : Record) : List Byte :=
  bytesLE64 r.x ++ bytesLE64 r.y ++ bytesLE64 r.z ++ bytesLE32 r.state ++ bytesLE32 r.temp

/-- An event as bytes (R81); the tags `01` and `02` "are event tags, not frame types". -/
def Event.bytes : Event → List Byte
  | .fingerSample seq timestamp records =>
    [0x01] ++ bytesLE16 seq ++ bytesLE64 timestamp ++ [BitVec.ofNat 8 records.length]
      ++ records.flatMap Record.bytes
  | .unknown type seq payload =>
    [0x02, type] ++ bytesLE16 seq ++ bytesLE16 (BitVec.ofNat 16 payload.length) ++ payload

/-- The events the port can carry (R80): "The record list has length `count`, 0 to 255"; a payload has length `size`. -/
def Event.wf : Event → Bool
  | .fingerSample _ _ records => decide (records.length ≤ 255)
  | .unknown _ _ payload => decide (payload.length ≤ 65535)

/-- The event on offer, if any (spec/10_state.md rule R31). -/
def State.offered (s : State) : Option Event := s.hold.map Hold.event

end Sys2Proof.Machine
end

