-- ==== Sys2Proof/Safety.lean ====
section
/-!
DEFINITION. The states a run can reach: the invariants of spec/10_state.md rule R25 and the ranges of rules R8, R22, R27
and R31, and the launch premise of spec/70_reset_and_hazards.md rule R253.
-/

namespace Sys2Proof.Machine

/-- `CAP` is in its range (R8). -/
abbrev State.CapWf (s : State) : Prop := 1 ≤ s.cap ∧ s.cap ≤ 4294967295

/-- The indices are in theirs (R22), and `FULL = 1` implies `HEAD = TAIL` (R25). -/
abbrev State.RingWf (s : State) : Prop :=
  s.head < s.cap ∧ s.tail < s.cap ∧ (s.full = true → s.head = s.tail)

/-- The storage is in canonical form and inside `0..CAP-1` (R40). -/
abbrev State.MemWf (s : State) : Prop :=
  Memory.wf s.mem = true ∧ Memory.within s.cap s.mem = true

/-- `STATUS` is 0, or holds `FAULT` and one of the three causes, its reserved bits 0 (R27, spec/60_exceptions.md rule
R221). -/
abbrev State.StatusWf (s : State) : Prop :=
  s.status = 0 ∨ s.status = statusOf .illegalCommand ∨ s.status = statusOf .consumeOverrun
    ∨ s.status = statusOf .zeroConsumeFull

/-- A drain on hold offers an event the port can carry, holds with no fault recorded (R223: a faulted block runs no
drain), is the last command taken and not abandoned, and has consumed at least 11 bytes for each event
(spec/42_frame_parser.md rule R161). -/
abbrev State.HoldWf (s : State) : Prop :=
  ∀ h ∈ s.hold, h.event.wf = true ∧ s.status = 0 ∧ s.abandoned = false ∧ minBuf * (h.emitted + 1) + s.size ≤ s.cap

/-- The invariant of the block. -/
abbrev State.Wf (s : State) : Prop :=
  s.CapWf ∧ s.RingWf ∧ s.MemWf ∧ s.StatusWf ∧ s.HoldWf

/-- The launch premise `clean_entry` (R253): `STATUS = 0`, `SIZE = 0`, the event port empty, no command in progress. -/
abbrev State.CleanEntry (s : State) : Prop :=
  s.status = 0 ∧ s.size = 0 ∧ s.hold = none

/-- "the last command has responded" (R269): it is not on hold, and the reset input has not abandoned it, since a drain that
is abandoned "never responds" (R250). -/
abbrev State.LastResponded (s : State) : Prop := s.hold = none ∧ s.abandoned = false

/-- The end of a run (R269): the last command has responded, the event port is empty, and no command is held at the port. -/
abbrev State.RunEnded (s : State) : Prop := s.LastResponded ∧ s.offered = none ∧ s.moves = []

/-! ## Terms the claims use -/

/-- The opcodes of spec/30_encoding.md rule R62. -/
def legalOpcodes : List (BitVec 8) :=
  [0x00, 0x01, 0x02, 0x03, 0x04, 0x05, 0x06, 0x07, 0x10, 0x11, 0x20, 0x30, 0x40, 0xF0]

/-- The opcodes whose IMM column in R62 reads 0: "NOP, RB_SIZE, RB_FREE, RB_CAP, PARSE_DRAIN, REG_READ and RESET" (R63). -/
def immZeroOpcodes : List (BitVec 8) := [0x00, 0x05, 0x06, 0x07, 0x20, 0x40, 0xF0]

/-- The three conditions of R63, on the word's fields alone. -/
abbrev LegalWord (w : Word) : Prop :=
  opcOf w ∈ legalOpcodes
    ∧ (subOf w = 0 ∨ (opcOf w = 0x40 ∧ (subOf w).toNat ≤ 6))
    ∧ (opcOf w ∈ immZeroOpcodes → immOf w = 0)

/-- "last `k` bytes of" a sequence (spec/40_ring_buffer.md rule R101). -/
def lastBytes (k : Nat) (s : List Byte) : List Byte := s.drop (s.length - k)

/-- The bytes a command asks to push (R101). -/
def pushedBy : Instr → List Byte
  | .rbPush d => d
  | .nop => []
  | .rbPeek _ => []
  | .rbRead _ => []
  | .rbConsume _ => []
  | .rbSize => []
  | .rbFree => []
  | .rbCap => []
  | .crcCompute _ => []
  | .crcValidate _ => []
  | .parseDrain => []
  | .buildHeartbeat _ => []
  | .regRead _ => []
  | .reset => []

/-- The commands with "no side effect on state" (spec/20_memory.md rule R47). -/
def readsOnly : Instr → Bool
  | .rbPeek _ => true
  | .rbSize => true
  | .rbFree => true
  | .rbCap => true
  | .crcCompute _ => true
  | .crcValidate _ => true
  | .buildHeartbeat _ => true
  | .regRead _ => true
  | .nop => true
  | .rbPush _ => false
  | .rbRead _ => false
  | .rbConsume _ => false
  | .parseDrain => false
  | .reset => false

/-- The commands carried out while `STATUS.FAULT = 1`: "only REG_READ and RESET" (spec/10_state.md rule R28). -/
def runsWhileFaulted : Instr → Bool
  | .regRead _ => true
  | .reset => true
  | .nop => false
  | .rbPush _ => false
  | .rbPeek _ => false
  | .rbRead _ => false
  | .rbConsume _ => false
  | .rbSize => false
  | .rbFree => false
  | .rbCap => false
  | .crcCompute _ => false
  | .crcValidate _ => false
  | .parseDrain => false
  | .buildHeartbeat _ => false

/-- The unread bytes open with the magic, and the header says `psize` payload bytes (spec/30_encoding.md rule R70). -/
abbrev HeaderSays (c : List Byte) (psize : Nat) : Prop :=
  7 ≤ c.length ∧ byteAt c 0 = 0x5A ∧ byteAt c 1 = 0xA5
    ∧ psize = (byteAt c 2).toNat + 256 * (byteAt c 3).toNat

/-- The finger-sample payload of a timestamp and records, then `extra` bytes (spec/30_encoding.md rule R72). -/
def fingerPayload (timestamp : BitVec 64) (records : List Record) (extra : List Byte) : List Byte :=
  bytesLE64 timestamp ++ [BitVec.ofNat 8 records.length] ++ records.flatMap Record.bytes ++ extra

/-- The `k` bytes of a number, by division: "Each gives the least significant byte first" (spec/00_scope.md rule R12, of
`bytesLE16`, `bytesLE32` and `bytesLE64`). -/
def littleEndian (k v : Nat) : List Byte := (List.range k).map fun i => BitVec.ofNat 8 (v / 256 ^ i)

/-- A frame that carries an event (R71, R72): the inverse of what the parser does. -/
def Event.frame : Event → List Byte
  | .fingerSample seq timestamp records => encodeFrame typeFinger seq (fingerPayload timestamp records [])
  | .unknown type seq payload => encodeFrame type seq payload

/-- The events a frame can carry: what the port can carry (R80), and no `Unknown` of type 1 (R159). -/
def Event.framed : Event → Bool
  | .fingerSample _ _ records => decide (records.length ≤ 255)
  | .unknown type _ payload => decide (type ≠ typeFinger) && decide (payload.length ≤ 65535)

/-- What a reset leaves (spec/10_state.md rule R35): an empty ring buffer at index 0, no fault, an empty event port, and the
same capacity; the events already delivered stay delivered. -/
abbrev AfterReset (s t : State) : Prop :=
  t.head = 0 ∧ t.tail = 0 ∧ t.full = false ∧ t.status = 0 ∧ t.hold = none ∧ t.cap = s.cap ∧ t.content = []
    ∧ t.events = s.events

/-- Up to `k` steps, stopping where the machine stops. -/
def stepTimes : Nat → State → Result
  | 0, s => .next s
  | k + 1, s =>
    match step s with
    | .next t => stepTimes k t
    | .fault r => .fault r
    | .refused r => .refused r

/-- A run of `k` steps from `s` to its end `t`: it starts "from a state that satisfies `clean_entry`", with the host's moves
in the state (R269). What the reset input did to a command before the run plays no part in it. -/
abbrev Run (k : Nat) (s t : State) : Prop :=
  s.CleanEntry ∧ stepTimes k { s with abandoned := false } = .next t ∧ t.RunEnded

/-- Two states that differ in stale bytes of `MEM` at most: "at an index outside the unread window" (spec/10_state.md rule
R33). -/
abbrev SameButStale (s t : State) : Prop := t = { s with mem := t.mem } ∧ t.content = s.content

/-- Two outcomes that a host cannot tell apart, up to stale bytes. -/
def sameOutcome : Result → Result → Prop
  | .next s, .next t => SameButStale s t
  | .fault a, .fault b => a = b
  | .refused a, .refused b => a = b
  | _, _ => False

end Sys2Proof.Machine
end

