-- ==== Sys2Proof/Certificates/Slice0/Obligations.lean ====
section
/-!
DEFINITION. The statements for the provers, taken from the numbered rules of spec/. Each docstring names the rule it
formalises; a clause that is the model's choice says so and names its log entry. A statement about exec whose premises do not
name the event port or the first reset holds on a hold and before the first reset too; what it says there is log entry 11's
choice, and no step takes an instruction there (R254, R266).
-/

open Sys2Proof Sys2Proof.Machine

/-! ## Encoding (spec/30_encoding.md) -/

/-- Decoding the bytes of any command, with any bytes after them, gives that command back and leaves those bytes (R60, R62,
R65, R67). -/
def Obligations.DecodingUndoesEncoding : Prop :=
  ∀ (i : Instr) (rest : List Byte), i.wf = true → decode (encode i ++ rest) = .ok (i, rest)

/-- No two words stand for one command: what decodes to a command is exactly that command's encoding (R62, R63). -/
def Obligations.EncodingUndoesDecoding : Prop :=
  ∀ (w : Word) (d : List Byte) (i : Instr),
    decodeCommand w d = .ok i → i.wf = true ∧ encodeWord i = w ∧ encodeData i = d

/-- R67: on a byte-wide port a command is `4 + k` bytes, "where `k = IMM` when `OPC` is `0x01`, `0x10` or `0x11`, and
`k = 0` otherwise", for every word, legal or not. -/
def Obligations.ByteStreamIsFramedByTheWord : Prop :=
  ∀ (w : Word) (d rest : List Byte),
    d.length = (if opcOf w = 0x01 ∨ opcOf w = 0x10 ∨ opcOf w = 0x11 then (immOf w).toNat else 0) →
      (bytesLE32 w ++ d).length = 4 + d.length ∧ splitCommand (bytesLE32 w ++ d ++ rest) = some (w, d, rest)

/-- Words written out from R60 and R62, at least one of each family, and one word for each way a word is illegal (R63). -/
def Obligations.SpecWordsDecode : Prop :=
  decode [0x00, 0x00, 0x00, 0x00] = .ok (.nop, [])
    ∧ decode [0x02, 0x00, 0x00, 0x01, 0xAA, 0xBB, 0x77] = .ok (.rbPush [0xAA, 0xBB], [0x77])
    ∧ decodeCommand 0x0200FFFF [] = .ok (.rbPeek 0xFFFF)
    ∧ decodeCommand 0x03001234 [] = .ok (.rbRead 0x1234)
    ∧ decodeCommand 0x04000001 [] = .ok (.rbConsume 1)
    ∧ decodeCommand 0x05000000 [] = .ok .rbSize
    ∧ decodeCommand 0x06000000 [] = .ok .rbFree
    ∧ decodeCommand 0x07000000 [] = .ok .rbCap
    ∧ decodeCommand 0x10000001 [0x61] = .ok (.crcCompute [0x61])
    ∧ decodeCommand 0x11000000 [] = .ok (.crcValidate [])
    ∧ decodeCommand 0x20000000 [] = .ok .parseDrain
    ∧ decodeCommand 0x30008001 [] = .ok (.buildHeartbeat 0x8001)
    ∧ decodeCommand 0x40060000 [] = .ok (.regRead .status)
    ∧ decodeCommand 0xF0000000 [] = .ok .reset
    ∧ decodeCommand 0x08000000 [] = .error .reservedOpcode
    ∧ decodeCommand 0x02010000 [] = .error .reservedSub
    ∧ decodeCommand 0x00000001 [] = .error .reservedImm
    ∧ decodeCommand 0x40070000 [] = .error .reservedRegister
    ∧ decodeCommand 0x01000002 [0xAA] = .error .dataLength

/-- R63: a word that meets the three conditions is an instruction, which the step runs; "Any other word is illegal. Executing
one is an ILLEGAL_COMMAND fault, subject to the order of checks" of R223: cause 1, answered `ILLEGAL` (R221). The list of host
moves and the mark of an abandoned drain are the model's own (log entries 3 and 20). -/
def Obligations.LegalWordsRunAndIllegalWordsFault : Prop :=
  ∀ (s : State) (w : Word) (d : List Byte) (rest : List HostMove),
    s.initialised = true → s.hold = none → s.moves = .command w d :: rest → d.length = dataLength w →
      (LegalWord w →
          ∃ i, decodeCommand w d = .ok i ∧ step s = exec i { s with moves := rest, abandoned := false })
        ∧ (¬LegalWord w → s.faulted = true → opcOf w ≠ 0x40 → opcOf w ≠ 0xF0 →
            step s =
              .next { s with moves := rest, abandoned := false, responses := s.responses ++ [⟨.faulted, []⟩] })
        ∧ (¬LegalWord w → (s.faulted = false ∨ opcOf w = 0x40 ∨ opcOf w = 0xF0) →
            ∃ t, step s = .next t
              ∧ (s.faulted = false → t.faulted = true ∧ t.cause = 1)
              ∧ (s.faulted = true → t.status = s.status)
              ∧ t = { s with moves := rest, abandoned := false, status := t.status,
                             responses := s.responses ++ [⟨.illegal, []⟩] })

/-! ## One step and the host interface (spec/70_reset_and_hazards.md) -/

/-- A command the host issues runs as the instruction it decodes to, on the state without that move (R15, R50, R262). The list
of host moves and the mark of an abandoned drain, which the new command clears, are the model's own (log entries 3, 15 and
20). -/
def Obligations.StepRunsTheDecodedInstruction : Prop :=
  ∀ (s : State) (w : Word) (d : List Byte) (rest : List HostMove) (i : Instr),
    s.initialised = true → s.hold = none → s.moves = .command w d :: rest → decodeCommand w d = .ok i →
      step s = exec i { s with moves := rest, abandoned := false }

/-- The transcriber refuses a pair whose data length is not the one the word requires (R65, R66). That this check
comes before the block's own is the model's reading (log entry 8). -/
def Obligations.WrongDataLengthIsRefused : Prop :=
  ∀ (s : State) (w : Word) (d : List Byte) (rest : List HostMove),
    s.initialised = true → s.hold = none → s.moves = .command w d :: rest → d.length ≠ dataLength w →
      step s = .refused .dataLength

/-- A command before the first reset is refused (R254). The bit that remembers the first reset is the model's own (log entry
6). -/
def Obligations.CommandBeforeFirstResetIsRefused : Prop :=
  ∀ (s : State) (w : Word) (d : List Byte) (rest : List HostMove),
    s.initialised = false → s.moves = .command w d :: rest → step s = .refused .beforeFirstReset

/-- Both reset sources apply the reset state in one step (R250, R35). The reset input needs no other premise: on a hold it
abandons the drain, withdraws the event and gives no response, so that the run has not ended (R269). RESET answers `OK`
(R203). The model's choices in it: the delivered events and the responses stay in their lists (log entry 3); RESET leaves the
bit of the first reset as it was (log entry 6); exec of RESET looks neither at a hold nor at that bit (log entry 11); the mark
of an abandoned drain (log entry 20). -/
def Obligations.ResetSourcesGiveTheResetState : Prop :=
  ∀ s : State,
    (∀ rest, s.moves = .resetInput :: rest →
        ∃ t, step s = .next t ∧ AfterReset s t ∧ t.initialised = true ∧ t.moves = rest ∧ t.responses = s.responses
          ∧ (t.abandoned = true ↔ s.initialised = true ∧ (s.hold ≠ none ∨ s.abandoned = true))
          ∧ (s.initialised = true → s.hold ≠ none → ¬t.RunEnded))
      ∧ ∃ t, exec .reset s = .next t ∧ AfterReset s t ∧ t.initialised = s.initialised ∧ t.moves = s.moves
          ∧ t.abandoned = s.abandoned ∧ t.responses = s.responses ++ [⟨.ok, []⟩]

/-- "While the hold lasts, no state changes and no other command is taken" (R266, R265): with an event on offer and nothing
from the host but commands, a step changes nothing. That such commands wait is the model's choice (log entry 4). -/
def Obligations.HoldLastsUntilTheHostActs : Prop :=
  ∀ (s : State) (h : Hold),
    s.initialised = true → s.hold = some h → (∀ m ∈ s.moves, ∃ w d, m = .command w d) → step s = .next s

/-- An acceptance delivers exactly the offered event, and "the drain continues from the step after the `emit`" (R80, R150,
R266): it does what PARSE_DRAIN does on the buffer as it stands, with the events emitted so far counted in. It answers how
many it emitted, or offers the next event. -/
def Obligations.AcceptanceDeliversTheOfferedEvent : Prop :=
  ∀ (s : State) (h : Hold) (rest : List HostMove),
    s.Wf → s.initialised = true → s.hold = some h → s.moves = .acceptEvent :: rest →
      ∃ t u, step s = .next t
        ∧ exec .parseDrain { s with moves := rest, hold := none, events := s.events ++ [h.event] } = .next u
        ∧ t.events = s.events ++ [h.event] ∧ t.moves = rest
        ∧ ((u.hold = none
              ∧ t = { u with responses :=
                  s.responses ++ [⟨.ok, bytesLE32 (BitVec.ofNat 32 (h.emitted + 1))⟩] })
            ∨ ∃ e, u.hold = some ⟨e, 0⟩ ∧ u.responses = s.responses ∧ t = { u with hold := some ⟨e, h.emitted + 1⟩ })

/-- "Between commands it is idle and keeps its state indefinitely" (spec/60_exceptions.md rule R235), and while an event is on
offer "no state changes" (R266). That a block before its first reset, whose state R254 leaves unspecified, keeps its state too
is the model's choice (log entries 6 and 7). -/
def Obligations.IdleBlockKeepsItsState : Prop :=
  ∀ s : State, s.moves = [] → step s = .next s

/-! ## Faults (spec/60_exceptions.md) -/

/-- "While `FAULT = 1`, only REG_READ and RESET are carried out. Every other command is answered `FAULTED` and changes
nothing" (R28, R223 step 1). -/
def Obligations.FaultedBlockRunsOnlyRegReadAndReset : Prop :=
  ∀ (i : Instr) (s : State), runsWhileFaulted i = false → s.faulted = true →
    exec i s = .next { s with responses := s.responses ++ [⟨.faulted, []⟩] }

/-- "No command other than RESET clears it. Reset clears it", and the first cause is kept (R28, R227): no step that is not a
reset changes the STATUS of a faulted block. -/
def Obligations.FaultIsStickyUntilReset : Prop :=
  ∀ s t : State, s.faulted = true → step s = .next t →
    (∀ rest, s.nextMove ≠ some (.resetInput, rest)) →
    (∀ d rest, s.nextMove ≠ some (.command 0xF0000000 d, rest)) →
      t.status = s.status

/-- `raise Fault(cause)` (R220): it records FAULT and CAUSE when no fault is recorded, keeps STATUS when one is, answers the
cause's status with no data, and changes nothing else. The causes' codes and statuses are R221's. -/
def Obligations.RaisingRecordsTheFirstCause : Prop :=
  ∀ (s : State) (c : Cause) (code : BitVec 4) (status : Status),
    (c = .illegalCommand ∧ code = 1 ∧ status = .illegal ∨ c = .consumeOverrun ∧ code = 2 ∧ status = .overrun
        ∨ c = .zeroConsumeFull ∧ code = 3 ∧ status = .unsettled) →
      (s.faulted = false → (s.raise c).faulted = true ∧ (s.raise c).cause = code)
        ∧ (s.faulted = true → (s.raise c).status = s.status)
        ∧ s.raise c = { s with status := (s.raise c).status, responses := s.responses ++ [⟨status, []⟩] }

/-- A command that answers a fault's status has changed nothing but STATUS, and gives no data (R46, R220, R221). -/
def Obligations.FaultingCommandChangesOnlyStatus : Prop :=
  ∀ (i : Instr) (s t : State) (r : Response),
    exec i s = .next t → t.responses = s.responses ++ [r] →
    r.status = .illegal ∨ r.status = .overrun ∨ r.status = .unsettled →
      r.data = [] ∧ t = { s with status := t.status, responses := s.responses ++ [r] }

/-- "Nothing else faults" (R222): of the instructions, only RB_CONSUME and RB_READ ever record a fault. A drain records none
after an acceptance either. -/
def Obligations.OnlyConsumingCommandsFault : Prop :=
  (∀ (i : Instr) (s t : State),
      (∀ len, i ≠ .rbRead len) → (∀ len, i ≠ .rbConsume len) → s.faulted = false → exec i s = .next t →
        t.faulted = false)
    ∧ ∀ s t : State, acceptOffered s = .next t → t.faulted = s.faulted

/-! ## Ring buffer commands (spec/40_ring_buffer.md) -/

/-- R101: `content()' = last min(CAP, len(c) + n) bytes of (c ++ d)`; R114: exactly `max(0, s + n - CAP)` bytes are evicted,
the oldest ones, and then `SIZE = min(CAP, s + n)`. RB_PUSH answers `OK` (R102). -/
def Obligations.PushAppendsAndEvictsTheOldest : Prop :=
  ∀ (s : State) (d : List Byte), s.Wf → s.faulted = false →
    ∃ t, exec (.rbPush d) s = .next t
      ∧ t.responses = s.responses ++ [⟨.ok, []⟩]
      ∧ t.content = lastBytes (min s.cap (s.content.length + d.length)) (s.content ++ d)
      ∧ s.content ++ d = (s.content ++ d).take (s.size + d.length - s.cap) ++ t.content
      ∧ t.size = min s.cap (s.size + d.length)

/-- R100: where RB_PUSH leaves `HEAD`, `TAIL` and `FULL`, and which storage bytes it writes: byte `k` of `d` stands at
`(HEAD + k) mod CAP` unless a later byte of `d` overwrote it. -/
def Obligations.PushRealisesTheIndices : Prop :=
  ∀ (s : State) (d : List Byte), s.Wf → s.faulted = false →
    ∃ t, exec (.rbPush d) s = .next t
      ∧ t.head = (s.head + d.length) % s.cap
      ∧ t.tail = (s.tail + (s.size + d.length - s.cap)) % s.cap
      ∧ (t.full = true ↔ s.cap ≤ s.size + d.length)
      ∧ ∀ k, k < d.length → d.length ≤ k + s.cap → Memory.read t.mem ((s.head + k) % s.cap) = byteAt d k

/-- The frame of RB_PUSH (R100, R102): no status bit, no event, nothing but the ring buffer and the response, and of the
storage only the bytes at `(HEAD + k) mod CAP` for `k < n`. -/
def Obligations.PushFrame : Prop :=
  ∀ (s t : State) (d : List Byte), exec (.rbPush d) s = .next t →
    t.cap = s.cap ∧ t.status = s.status ∧ t.hold = s.hold ∧ t.initialised = s.initialised ∧ t.moves = s.moves
      ∧ t.abandoned = s.abandoned ∧ t.events = s.events ∧ (∃ r, t.responses = s.responses ++ [r])
      ∧ ∀ a, (∀ k, k < d.length → a ≠ (s.head + k) % s.cap) → Memory.read t.mem a = Memory.read s.mem a

/-- R104: RB_PEEK "returns the next `len` bytes without consuming, fails if `size() < len`", and a failed peek is a response
that leaves every piece of state as it was. -/
def Obligations.PeekReturnsWithoutConsuming : Prop :=
  ∀ (s : State) (len : BitVec 16), s.faulted = false →
    exec (.rbPeek len) s =
      .next { s with responses := s.responses ++
        [if s.size < len.toNat then ⟨.insufficient, []⟩ else ⟨.ok, s.content.take len.toNat⟩] }

/-- R106: RB_READ "either returns `len` bytes and consumes exactly those `len`, or returns `INSUFFICIENT` and consumes
nothing". The one case left out, length 0 on a full buffer, is R107's. -/
def Obligations.ReadIsPeekAndConsume : Prop :=
  ∀ (s : State) (len : BitVec 16), s.Wf → s.faulted = false → ¬(len = 0 ∧ s.full = true) →
    (s.size < len.toNat →
        exec (.rbRead len) s = .next { s with responses := s.responses ++ [⟨.insufficient, []⟩] })
      ∧ (len.toNat ≤ s.size →
          ∃ t, exec (.rbRead len) s = .next t
            ∧ t = { s with tail := (s.tail + len.toNat) % s.cap, full := false,
                           responses := s.responses ++ [⟨.ok, s.content.take len.toNat⟩] }
            ∧ t.content = s.content.drop len.toNat ∧ t.size = s.size - len.toNat)

/-- R108: RB_CONSUME of `len <= SIZE` bytes advances the tail by `len`, clears `FULL`, and drops exactly the first `len`
unread bytes. -/
def Obligations.ConsumeDiscardsTheOldest : Prop :=
  ∀ (s : State) (len : BitVec 16), s.Wf → s.faulted = false → ¬(len = 0 ∧ s.full = true) → len.toNat ≤ s.size →
    ∃ t, exec (.rbConsume len) s = .next t
      ∧ t = { s with tail := (s.tail + len.toNat) % s.cap, full := false,
                     responses := s.responses ++ [⟨.ok, []⟩] }
      ∧ t.content = s.content.drop len.toNat ∧ t.size = s.size - len.toNat

/-- R109: `RB_CONSUME len` with `len > SIZE` records CONSUME_OVERRUN, answers `OVERRUN`, and leaves the ring buffer. -/
def Obligations.ConsumeOverrunFaults : Prop :=
  ∀ (s : State) (len : BitVec 16), s.faulted = false → s.size < len.toNat →
    ∃ t, exec (.rbConsume len) s = .next t ∧ t.faulted = true ∧ t.cause = 2
      ∧ t = { s with status := t.status, responses := s.responses ++ [⟨.overrun, []⟩] }

/-- R107: "A consume of length 0 while `FULL = 1` is a fault. This covers RB_CONSUME 0 and RB_READ 0"; with `FULL = 0` a
length-0 consume changes nothing. -/
def Obligations.LengthZeroConsumeOnFullFaults : Prop :=
  ∀ s : State, s.Wf → s.faulted = false →
    (s.full = true →
        (∃ t, exec (.rbConsume 0) s = .next t ∧ t.faulted = true ∧ t.cause = 3
            ∧ t = { s with status := t.status, responses := s.responses ++ [⟨.unsettled, []⟩] })
          ∧ ∃ t, exec (.rbRead 0) s = .next t ∧ t.faulted = true ∧ t.cause = 3
            ∧ t = { s with status := t.status, responses := s.responses ++ [⟨.unsettled, []⟩] })
      ∧ (s.full = false →
          exec (.rbConsume 0) s = .next { s with responses := s.responses ++ [⟨.ok, []⟩] }
            ∧ exec (.rbRead 0) s = .next { s with responses := s.responses ++ [⟨.ok, []⟩] })

/-- The frame of RB_READ and RB_CONSUME (R105, R108): the storage, `HEAD` and everything outside the ring buffer stay; only
`TAIL` and `FULL` (on `OK`), STATUS (on a fault's response) and the response may change. -/
def Obligations.ReadAndConsumeFrame : Prop :=
  ∀ (i : Instr) (s t : State) (len : BitVec 16), i = .rbRead len ∨ i = .rbConsume len → exec i s = .next t →
    t.cap = s.cap ∧ t.head = s.head ∧ t.hold = s.hold ∧ t.initialised = s.initialised ∧ t.moves = s.moves
      ∧ t.abandoned = s.abandoned ∧ t.events = s.events
      ∧ (∃ r, t.responses = s.responses ++ [r]
          ∧ (r.status ≠ .ok → t.tail = s.tail ∧ t.full = s.full)
          ∧ (r.status ≠ .overrun → r.status ≠ .unsettled → t.status = s.status))
      ∧ ∀ a, Memory.read t.mem a = Memory.read s.mem a

/-- RB_SIZE, RB_FREE and RB_CAP answer the number of unread bytes, `CAP` less it, and `CAP`, as 4 bytes little-endian, and
change nothing (R111, R112, R113). -/
def Obligations.SizeFreeAndCapAnswer : Prop :=
  ∀ s : State, s.faulted = false →
    exec .rbSize s =
        .next { s with responses := s.responses ++ [⟨.ok, bytesLE32 (BitVec.ofNat 32 s.content.length)⟩] }
      ∧ exec .rbFree s =
        .next { s with responses := s.responses ++ [⟨.ok, bytesLE32 (BitVec.ofNat 32 (s.cap - s.content.length))⟩] }
      ∧ exec .rbCap s =
        .next { s with responses := s.responses ++ [⟨.ok, bytesLE32 (BitVec.ofNat 32 s.cap)⟩] }

/-- R25 (spec/10_state.md): `0 <= SIZE <= CAP`; `SIZE + FREE = CAP`; `FULL = 1` implies `HEAD = TAIL`; `SIZE = CAP` exactly
when `FULL = 1`; with `FULL = 0`, at most `CAP - 1`. -/
def Obligations.SizeAndFreeInvariants : Prop :=
  ∀ s : State, s.Wf →
    s.size ≤ s.cap ∧ s.size + s.free = s.cap ∧ (s.full = true → s.head = s.tail) ∧ (s.size = s.cap ↔ s.full = true)
      ∧ (s.full = false → s.size ≤ s.cap - 1)

/-- The FIFO law (R110), one command at a time: where nothing is evicted, a command but RESET removes a first part of the
unread bytes and appends what it pushes, in order; RB_READ returns exactly the bytes it removes; `SIZE + FREE = CAP`. -/
def Obligations.FifoLaw : Prop :=
  ∀ (i : Instr) (s t : State), s.Wf → s.faulted = false → i ≠ .reset → s.size + (pushedBy i).length ≤ s.cap →
    exec i s = .next t →
      ∃ removed, s.content ++ pushedBy i = removed ++ t.content ∧ t.size + t.free = s.cap
        ∧ ∀ len, i = .rbRead len → ∃ r, t.responses = s.responses ++ [r] ∧ r.data = removed

/-! ## CRC and builder (spec/41_crc.md, spec/43_frame_builder.md) -/

/-- CRC_COMPUTE and CRC_VALIDATE answer from their own data bytes, and change nothing (R133, R134, R135). -/
def Obligations.CrcCommandsAnswer : Prop :=
  ∀ (s : State) (d : List Byte), s.faulted = false →
    exec (.crcCompute d) s = .next { s with responses := s.responses ++ [⟨.ok, bytesLE32 (crc32 d)⟩] }
      ∧ exec (.crcValidate d) s =
        .next { s with responses := s.responses ++
          [if d.length < 4 then ⟨.insufficient, []⟩
           else if crc32 (d.take (d.length - 4)) = le32 d (d.length - 4) then ⟨.ok, [0x01]⟩
           else ⟨.ok, [0x00]⟩] }

/-- The reference values of R132, the residue for every sequence. -/
def Obligations.CrcReferenceValues : Prop :=
  crc32 [] = 0x00000000
    ∧ crc32 [0x31, 0x32, 0x33, 0x34, 0x35, 0x36, 0x37, 0x38, 0x39] = 0xCBF43926
    ∧ ∀ s : List Byte, crc32 (s ++ bytesLE32 (crc32 s)) = 0x2144DF1C

/-- R136: "Every heartbeat frame validates", by the predicate and by the command. -/
def Obligations.EveryHeartbeatValidates : Prop :=
  ∀ seq : BitVec 16, crcOk (heartbeatFrame seq) = true
    ∧ ∀ s : State, s.faulted = false →
        exec (.crcValidate (heartbeatFrame seq)) s = .next { s with responses := s.responses ++ [⟨.ok, [0x01]⟩] }

/-- R137: "Flipping one bit of a frame makes `crc_ok` false", wherever the bit is. -/
def Obligations.SingleBitErrorsAreDetected : Prop :=
  ∀ (f : List Byte) (k b : Nat), crcOk f = true → k < f.length → b < 8 →
    crcOk (f.set k (byteAt f k ^^^ (1#8 <<< b))) = false

/-- `encode_frame` (R190): its length, that `crc_ok` holds for it, and that its header says its payload's length. -/
def Obligations.EncodedFramesPassTheCheck : Prop :=
  ∀ (type : BitVec 8) (seq : BitVec 16) (payload : List Byte), payload.length ≤ 65535 →
    (encodeFrame type seq payload).length = 7 + payload.length + 4
      ∧ crcOk (encodeFrame type seq payload) = true
      ∧ HeaderSays (encodeFrame type seq payload) payload.length

/-- R193: the heartbeat frame byte by byte, as BUILD_HEARTBEAT answers it; it changes nothing (R191, R192). -/
def Obligations.HeartbeatIsTheTwelveBytes : Prop :=
  ∀ (s : State) (seq : BitVec 16) (body : List Byte) (c : Word), s.faulted = false →
    body = [0x5A, 0xA5, 0x01, 0x00, seq.extractLsb' 0 8, seq.extractLsb' 8 8, 0x02, 0x01] → c = crc32 body →
      exec (.buildHeartbeat seq) s =
        .next { s with responses := s.responses ++
          [⟨.ok, body ++ [c.extractLsb' 0 8, c.extractLsb' 8 8, c.extractLsb' 16 8, c.extractLsb' 24 8]⟩] }

/-! ## Control and observation (spec/44_control.md) -/

/-- NOP answers `OK` and changes nothing (R200). -/
def Obligations.NopAnswersOk : Prop :=
  ∀ s : State, s.faulted = false → exec .nop s = .next { s with responses := s.responses ++ [⟨.ok, []⟩] }

/-- REG_READ returns each register's value, faulted or not, and changes nothing (R29, R201); the reserved bits of STATUS
read as 0 (R27). -/
def Obligations.RegReadReturnsTheRegister : Prop :=
  ∀ (s : State) (r : Reg),
    exec (.regRead r) s =
      .next { s with responses := s.responses ++
        [⟨.ok, bytesLE32 (match r with
          | .capacity => BitVec.ofNat 32 s.cap
          | .head => BitVec.ofNat 32 s.head
          | .tail => BitVec.ofNat 32 s.tail
          | .fullReg => if s.full = true then 1 else 0
          | .sizeReg => BitVec.ofNat 32 s.content.length
          | .freeReg => BitVec.ofNat 32 (s.cap - s.content.length)
          | .status => s.status &&& 0x000000F1)⟩] }

/-- The commands with no side effect (spec/20_memory.md rule R47) change nothing but the list of responses, and are
idempotent: "two in a row give the same response". -/
def Obligations.ReadOnlyCommandsChangeNothing : Prop :=
  ∀ (i : Instr) (s t : State), readsOnly i = true → exec i s = .next t →
    ∃ r, t = { s with responses := s.responses ++ [r] } ∧ exec i t = .next { t with responses := t.responses ++ [r] }

/-! ## The drain (spec/42_frame_parser.md) -/

/-- PARSE_DRAIN always ends, by answering the count or by offering an event (R161, R266). -/
def Obligations.DrainAlwaysEnds : Prop :=
  ∀ s : State, s.Wf → s.faulted = false → s.hold = none →
    ∃ t, exec .parseDrain s = .next t
      ∧ ((t.hold = none ∧ t.responses = s.responses ++ [⟨.ok, [0, 0, 0, 0]⟩])
          ∨ ∃ e, t.hold = some ⟨e, 0⟩ ∧ t.responses = s.responses)

/-- The frame of PARSE_DRAIN (R150): "`MEM` and `HEAD` are never written", nor is anything but `TAIL`, `FULL`, the event
port and the response. -/
def Obligations.DrainFrame : Prop :=
  ∀ s t : State, exec .parseDrain s = .next t →
    t.cap = s.cap ∧ t.head = s.head ∧ t.status = s.status ∧ t.initialised = s.initialised ∧ t.moves = s.moves
      ∧ t.abandoned = s.abandoned ∧ t.events = s.events ∧ (t.responses = s.responses ∨ ∃ r, t.responses = s.responses ++ [r])
      ∧ ∀ a, Memory.read t.mem a = Memory.read s.mem a

/-- R172: an iteration that does not stop consumes 1 byte with `SIZE >= 11` at a magic mismatch, or the `total = 7 + psize + 4`
bytes of the frame its header announces with `SIZE >= total >= 11`, so its consumes never fault, and "a drain never sets
STATUS". -/
def Obligations.DrainConsumesOnlyWhatIsBuffered : Prop :=
  ∀ s : State,
    (∀ why t, iterate s = .discard why t →
        ∃ n, t = { s with tail := (s.tail + n) % s.cap, full := false }
          ∧ ((why = .resync ∧ n = 1 ∧ 11 ≤ s.size ∧ ¬(byteAt s.content 0 = 0x5A ∧ byteAt s.content 1 = 0xA5))
            ∨ (why ≠ .resync ∧ ∃ psize, HeaderSays s.content psize ∧ n = 7 + psize + 4 ∧ 11 ≤ n ∧ n ≤ s.size)))
      ∧ (∀ e t, iterate s = .emit e t →
          ∃ n psize, t = { s with tail := (s.tail + n) % s.cap, full := false }
            ∧ HeaderSays s.content psize ∧ n = 7 + psize + 4 ∧ 11 ≤ n ∧ n ≤ s.size)
      ∧ (∀ t, exec .parseDrain s = .next t → t.status = s.status)
      ∧ ∀ t, acceptOffered s = .next t → t.status = s.status

/-- R151: with fewer than 11 bytes buffered the drain stops at once, answers 0 events and keeps every byte. -/
def Obligations.ShortBufferStopsTheDrain : Prop :=
  ∀ s : State, s.faulted = false → s.size < 11 →
    exec .parseDrain s = .next { s with responses := s.responses ++ [⟨.ok, [0, 0, 0, 0]⟩] }

/-- R152: when the first two unread bytes are not `5A A5`, exactly one byte is consumed and the loop goes back to step 1. -/
def Obligations.MagicMismatchDropsOneByte : Prop :=
  ∀ s : State, s.Wf → s.faulted = false → 11 ≤ s.size →
    ¬(byteAt s.content 0 = 0x5A ∧ byteAt s.content 1 = 0xA5) →
      exec .parseDrain s = exec .parseDrain { s with tail := (s.tail + 1) % s.cap, full := false }

/-- R154: when fewer than `7 + psize + 4` bytes are buffered the drain stops, and the header stays unread. -/
def Obligations.IncompleteFrameIsKept : Prop :=
  ∀ (s : State) (psize : Nat), s.faulted = false → HeaderSays s.content psize → s.size < 7 + psize + 4 →
    exec .parseDrain s = .next { s with responses := s.responses ++ [⟨.ok, [0, 0, 0, 0]⟩] }

/-- R155: a candidate frame whose CRC is wrong is consumed whole and discarded; "The next iteration starts with the byte after
the frame's trailer". -/
def Obligations.BadChecksumDropsTheFrame : Prop :=
  ∀ (s : State) (f rest : List Byte) (psize : Nat), s.Wf → s.faulted = false → s.content = f ++ rest →
    HeaderSays f psize → f.length = 7 + psize + 4 → crcOk f = false →
      exec .parseDrain s = exec .parseDrain { s with tail := (s.tail + f.length) % s.cap, full := false }
        ∧ State.content { s with tail := (s.tail + f.length) % s.cap, full := false } = rest

/-- R156 and R157: a type 1 frame with `psize < 9`, or `psize < 9 + 32*count`, is discarded whole and silently. -/
def Obligations.MalformedFingerSampleIsDropped : Prop :=
  ∀ (s : State) (f rest : List Byte) (psize : Nat), s.Wf → s.faulted = false → s.content = f ++ rest →
    HeaderSays f psize → f.length = 7 + psize + 4 → crcOk f = true → byteAt f 6 = 1 →
    (psize < 9 ∨ psize < 9 + 32 * (byteAt f 15).toNat) →
      exec .parseDrain s = exec .parseDrain { s with tail := (s.tail + f.length) % s.cap, full := false }
        ∧ State.content { s with tail := (s.tail + f.length) % s.cap, full := false } = rest

/-- R159: a frame of any other type is offered as `Unknown(type, seq, p)`, with `p = f[7 .. 7 + psize)` whatever it holds. The
event port is empty before, since no command is taken while an event is on offer (R266). -/
def Obligations.UnknownFrameIsOffered : Prop :=
  ∀ (s : State) (f rest : List Byte) (psize : Nat), s.Wf → s.faulted = false → s.hold = none → s.content = f ++ rest →
    HeaderSays f psize → f.length = 7 + psize + 4 → crcOk f = true → byteAt f 6 ≠ 1 →
      exec .parseDrain s =
        .next { s with tail := (s.tail + f.length) % s.cap, full := false,
                       hold := some ⟨.unknown (byteAt f 6) (le16 f 4) ((f.drop 7).take psize), 0⟩ }

/-- R158 and R163: a type 1 frame is offered with its sequence number, its timestamp and its `count` records, bit for bit, and
the payload bytes after the records are ignored. The event port is empty before (R266). -/
def Obligations.FingerSampleIsOffered : Prop :=
  ∀ (s : State) (seq : BitVec 16) (timestamp : BitVec 64) (records : List Record) (extra rest : List Byte),
    s.Wf → s.faulted = false → s.hold = none → records.length ≤ 255 → (fingerPayload timestamp records extra).length ≤ 65535 →
    s.content = encodeFrame 1 seq (fingerPayload timestamp records extra) ++ rest →
      exec .parseDrain s =
        .next { s with
          tail := (s.tail + (encodeFrame 1 seq (fingerPayload timestamp records extra)).length) % s.cap, full := false,
          hold := some ⟨.fingerSample seq timestamp records, 0⟩ }

/-- R160: when PARSE_DRAIN ends, at once or after the acceptance of its last event, `SIZE < 11` or the first unread bytes are
a matching magic and a header whose `total` exceeds `SIZE`. "Either way, a second PARSE_DRAIN with no push in between emits
nothing and changes nothing". -/
def Obligations.DrainEndsShortOrAtALongerTotal : Prop :=
  ∀ s t : State, s.Wf →
    ((s.hold = none ∧ s.faulted = false ∧ exec .parseDrain s = .next t)
      ∨ ∃ h, s.hold = some h ∧ acceptOffered s = .next t) →
    t.hold = none →
      (t.size < 11 ∨ ∃ psize, HeaderSays t.content psize ∧ t.size < 7 + psize + 4)
        ∧ exec .parseDrain t = .next { t with responses := t.responses ++ [⟨.ok, [0, 0, 0, 0]⟩] }

/-- R168: junk without a `5A A5` pair in front of a frame is discarded byte by byte, and the drain goes on as if it had found
the frame alone. -/
def Obligations.JunkIsResyncedOver : Prop :=
  ∀ (s : State) (junk payload rest : List Byte) (type : BitVec 8) (seq : BitVec 16), s.Wf → s.faulted = false →
    junk ≠ [] → payload.length ≤ 65535 → s.content = junk ++ encodeFrame type seq payload ++ rest →
    (∀ i, i + 1 < junk.length → ¬(byteAt junk i = 0x5A ∧ byteAt junk (i + 1) = 0xA5)) →
      exec .parseDrain s = exec .parseDrain { s with tail := (s.tail + junk.length) % s.cap, full := false }
        ∧ State.content { s with tail := (s.tail + junk.length) % s.cap, full := false }
            = encodeFrame type seq payload ++ rest

/-- R169, R162: while only a part of a frame has arrived, the drain emits nothing and keeps every byte of it. -/
def Obligations.PartialFrameWaits : Prop :=
  ∀ (s : State) (e : Event) (j : Nat), s.faulted = false → e.framed = true → j < e.frame.length →
    s.content = e.frame.take j →
      exec .parseDrain s = .next { s with responses := s.responses ++ [⟨.ok, [0, 0, 0, 0]⟩] }

/-- The parser undoes the framing (R51, R150, R158, R159, R163, R266): from a buffer that holds the frames of any events, one
PARSE_DRAIN whose offers the host accepts delivers exactly those events, in order and bit for bit, answers their number, and
leaves the buffer empty; with no move left the run has ended (R269). -/
def Obligations.BufferedFramesAreAllDelivered : Prop :=
  ∀ (s : State) (es : List Event) (rest : List HostMove),
    s.Wf → s.initialised = true → s.faulted = false → s.hold = none →
    s.moves = moveOf .parseDrain :: (List.replicate es.length .acceptEvent ++ rest) →
    (∀ e ∈ es, e.framed = true) → s.content = es.flatMap Event.frame →
      ∃ t, stepTimes (es.length + 1) s = .next t
        ∧ t.events = s.events ++ es
        ∧ t.responses = s.responses ++ [⟨.ok, bytesLE32 (BitVec.ofNat 32 es.length)⟩]
        ∧ t.content = [] ∧ t.hold = none ∧ t.moves = rest ∧ t.status = s.status ∧ (rest = [] → t.RunEnded)

/-! ## Invariants of the whole block -/

/-- R252 (spec/70_reset_and_hazards.md): the reset state of every capacity, this block's among them, meets every invariant,
with `SIZE = 0` and `FREE = CAP`, and satisfies `clean_entry` (R253). -/
def Obligations.ResetStateMeetsTheInvariants : Prop :=
  (∀ cap, 1 ≤ cap → cap ≤ 4294967295 →
      (State.resetAt cap).Wf ∧ (State.resetAt cap).CleanEntry ∧ (State.resetAt cap).size = 0
        ∧ (State.resetAt cap).free = cap ∧ ¬((State.resetAt cap).full = true ∧ (State.resetAt cap).size = 0))
    ∧ ∃ cap, 1 ≤ cap ∧ cap ≤ 4294967295 ∧ State.reset = State.resetAt cap

/-- Every step keeps the invariants: the index ranges and R25, the canonical storage, the legal STATUS values of R27 and
R221, and the event on offer (R22, R31). -/
def Obligations.StepKeepsTheInvariants : Prop :=
  ∀ s t : State, s.Wf → step s = .next t → t.Wf

/-- `CAP` is "fixed before reset and never changed" (spec/00_scope.md rule R8). -/
def Obligations.CapacityNeverChanges : Prop :=
  ∀ s t : State, step s = .next t → t.cap = s.cap

/-- R33 (spec/10_state.md): "No command returns a stale byte". Two states that differ in stale bytes only take the same step,
to states that again differ in stale bytes only: the same responses, events, registers and unread bytes. -/
def Obligations.StaleBytesAreUnobservable : Prop :=
  ∀ s t : State, s.RingWf → s.MemWf → t.MemWf → SameButStale s t → sameOutcome (step s) (step t)

/-- The model's own two faults are outside its invariants: no step of such a state stops at one (log entries 9 and 10;
R161, R172). -/
def Obligations.StepNeverStopsAtAFault : Prop :=
  ∀ (s : State) (r : Fault), s.Wf → step s ≠ .fault r

/-- A step refuses only a command: one issued before the first reset, which the model refuses (R254; log entry 6), or one whose
data length is wrong, which the transcriber refuses (R66; log entry 8). -/
def Obligations.StepRefusesOnlyEarlyOrMisfitCommands : Prop :=
  ∀ (s : State) (r : Refusal), step s = .refused r →
    (s.initialised = false ∧ r = .beforeFirstReset ∧ ∃ w d rest, s.moves = .command w d :: rest)
      ∨ (s.initialised = true ∧ r = .dataLength
          ∧ ∃ w d rest, s.nextMove = some (.command w d, rest) ∧ d.length ≠ dataLength w)

/-! ## The ports as bytes, and FEED (spec/30_encoding.md) -/

/-- R81: how an event is serialised "When the event port carries bytes", byte by byte, its lengths, and that no two events the
port can carry have one serialisation. -/
def Obligations.EventsSerialiseAsLaidOutAndDistinctly : Prop :=
  (∀ (seq : BitVec 16) (timestamp : BitVec 64) (records : List Record),
      (Event.fingerSample seq timestamp records).bytes =
          [0x01] ++ littleEndian 2 seq.toNat ++ littleEndian 8 timestamp.toNat ++ littleEndian 1 records.length
            ++ records.flatMap (fun r => littleEndian 8 r.x.toNat ++ littleEndian 8 r.y.toNat
                ++ littleEndian 8 r.z.toNat ++ littleEndian 4 r.state.toNat ++ littleEndian 4 r.temp.toNat)
        ∧ (Event.fingerSample seq timestamp records).bytes.length = 12 + 32 * records.length)
    ∧ (∀ (type : BitVec 8) (seq : BitVec 16) (payload : List Byte),
        (Event.unknown type seq payload).bytes =
            [0x02, type] ++ littleEndian 2 seq.toNat ++ littleEndian 2 payload.length ++ payload
          ∧ (Event.unknown type seq payload).bytes.length = 6 + payload.length)
    ∧ ∀ e e' : Event, e.wf = true → e'.wf = true → e.bytes = e'.bytes → e = e'

/-- R69: `FEED` of a chunk is RB_PUSH commands "of at most `IMM_MAX` bytes each, in stream order, then one `PARSE_DRAIN`". -/
def Obligations.FeedPushesTheChunkThenDrains : Prop :=
  ∀ chunk : List Byte,
    ∃ ds : List (List Byte), feed chunk = ds.map Instr.rbPush ++ [.parseDrain] ∧ ds.flatten = chunk
      ∧ (∀ d ∈ ds, d.length ≤ 65535) ∧ (chunk.length ≤ 65535 → ds = [chunk])
end

