-- ==== Sys2Proof/Laws/Bytes.lean ====
section
/-!
SUPPORT. Little-endian fields: lengths, reading inside a concatenation, and that reading undoes writing.
-/

namespace Sys2Proof

@[simp] theorem bytesLE16_length (v : BitVec 16) : (bytesLE16 v).length = 2 := rfl

@[simp] theorem bytesLE32_length (v : BitVec 32) : (bytesLE32 v).length = 4 := rfl

@[simp] theorem bytesLE64_length (v : BitVec 64) : (bytesLE64 v).length = 8 := rfl

/-- A byte of the second part of a concatenation. -/
theorem byteAt_append_right (s t : List Byte) (i : Nat) : byteAt (s ++ t) (s.length + i) = byteAt t i := by
  simp [byteAt, List.getD_eq_getElem?_getD, List.getElem?_append_right]

/-- A byte of the first part of a concatenation. -/
theorem byteAt_append_left (s t : List Byte) (i : Nat) (h : i < s.length) : byteAt (s ++ t) i = byteAt s i := by
  simp [byteAt, List.getD_eq_getElem?_getD, List.getElem?_append_left h]

theorem byteAt_take (s : List Byte) (n i : Nat) (h : i < n) : byteAt (s.take n) i = byteAt s i := by
  simp [byteAt, List.getD_eq_getElem?_getD, h]

theorem byteAt_drop (s : List Byte) (n i : Nat) : byteAt (s.drop n) i = byteAt s (n + i) := by
  simp [byteAt, List.getD_eq_getElem?_getD, List.getElem?_drop]

theorem byteAt_of_lt (s : List Byte) (i : Nat) (h : i < s.length) : byteAt s i = s[i] := by
  simp [byteAt, List.getD_eq_getElem?_getD, h]

/-- Reading past the first part of a concatenation. -/
theorem le16_append_right (s t : List Byte) (o : Nat) : le16 (s ++ t) (s.length + o) = le16 t o := by
  simp [le16, Nat.add_assoc, byteAt_append_right]

theorem le32_append_right (s t : List Byte) (o : Nat) : le32 (s ++ t) (s.length + o) = le32 t o := by
  simp [le32, Nat.add_assoc, le16_append_right]

theorem le64_append_right (s t : List Byte) (o : Nat) : le64 (s ++ t) (s.length + o) = le64 t o := by
  simp [le64, Nat.add_assoc, le32_append_right]

/-- Reading inside the first part of a concatenation. -/
theorem le16_append_left (s t : List Byte) (o : Nat) (h : o + 2 ≤ s.length) : le16 (s ++ t) o = le16 s o := by
  simp only [le16, byteAt_append_left s t (o + 1) (by omega), byteAt_append_left s t o (by omega)]

theorem le32_append_left (s t : List Byte) (o : Nat) (h : o + 4 ≤ s.length) : le32 (s ++ t) o = le32 s o := by
  simp only [le32, le16_append_left s t (o + 2) (by omega), le16_append_left s t o (by omega)]

theorem le64_append_left (s t : List Byte) (o : Nat) (h : o + 8 ≤ s.length) : le64 (s ++ t) o = le64 s o := by
  simp only [le64, le32_append_left s t (o + 4) (by omega), le32_append_left s t o (by omega)]

theorem le16_take (s : List Byte) (n o : Nat) (h : o + 2 ≤ n) : le16 (s.take n) o = le16 s o := by
  simp only [le16, byteAt_take s n (o + 1) (by omega), byteAt_take s n o (by omega)]

/-- A vector is its upper half in front of its lower half. -/
theorem halves_append (n : Nat) (v : BitVec (n + n)) : v.extractLsb' n n ++ v.extractLsb' 0 n = v := by
  apply BitVec.eq_of_getLsbD_eq
  intro i hi
  rw [BitVec.getLsbD_append]
  by_cases h : i < n
  · simp [h]
  · simp only [h, if_false, BitVec.getLsbD_extractLsb', decide_eq_true (show i - n < n by omega), Bool.true_and]
    congr 1
    omega

theorem le16_bytes (v : BitVec 16) : le16 (bytesLE16 v) 0 = v := by
  exact halves_append 8 v

theorem le32_bytes (v : BitVec 32) : le32 (bytesLE32 v) 0 = v := by
  have hl : le16 (bytesLE32 v) 0 = v.extractLsb' 0 16 := by
    rw [bytesLE32, le16_append_left _ _ _ (by simp), le16_bytes]
  have hr : le16 (bytesLE32 v) 2 = v.extractLsb' 16 16 := by
    have := le16_append_right (bytesLE16 (v.extractLsb' 0 16)) (bytesLE16 (v.extractLsb' 16 16)) 0
    rwa [le16_bytes] at this
  simp only [le32, hl, Nat.zero_add, hr]
  exact halves_append 16 v

theorem le64_bytes (v : BitVec 64) : le64 (bytesLE64 v) 0 = v := by
  have hl : le32 (bytesLE64 v) 0 = v.extractLsb' 0 32 := by
    rw [bytesLE64, le32_append_left _ _ _ (by simp), le32_bytes]
  have hr : le32 (bytesLE64 v) 4 = v.extractLsb' 32 32 := by
    have := le32_append_right (bytesLE32 (v.extractLsb' 0 32)) (bytesLE32 (v.extractLsb' 32 32)) 0
    rwa [le32_bytes] at this
  simp only [le64, hl, Nat.zero_add, hr]
  exact halves_append 32 v

/-- A field written at the start of a sequence reads back. -/
theorem le16_bytes_append (v : BitVec 16) (t : List Byte) : le16 (bytesLE16 v ++ t) 0 = v := by
  rw [le16_append_left _ _ _ (by simp), le16_bytes]

theorem le32_bytes_append (v : BitVec 32) (t : List Byte) : le32 (bytesLE32 v ++ t) 0 = v := by
  rw [le32_append_left _ _ _ (by simp), le32_bytes]

theorem le64_bytes_append (v : BitVec 64) (t : List Byte) : le64 (bytesLE64 v ++ t) 0 = v := by
  rw [le64_append_left _ _ _ (by simp), le64_bytes]

/-- The number a 16-bit field holds: `LE16(s, o) = s[o] + 256*s[o+1]` (R12). -/
theorem le16_toNat (s : List Byte) (o : Nat) :
    (le16 s o).toNat = (byteAt s o).toNat + 256 * (byteAt s (o + 1)).toNat := by
  have h1 := (byteAt s o).isLt
  rw [le16, BitVec.toNat_append, Nat.shiftLeft_eq, Nat.or_comm]
  rw [Nat.or_comm, ← Nat.shiftLeft_eq, ← Nat.shiftLeft_add_eq_or_of_lt h1, Nat.shiftLeft_eq]
  omega

end Sys2Proof
end

