-- ==== Sys2Proof/Laws/Memory.lean ====
section
/-!
SUPPORT. The storage: a read after a write, and that every write keeps the canonical form inside the storage.
-/

namespace Sys2Proof.Machine

@[simp] theorem Memory.read_nil (i : Nat) : Memory.read [] i = Memory.unlisted := rfl

theorem Memory.read_cons (a : Nat) (b : Byte) (m : List Host.Cell) (i : Nat) :
    Memory.read ((a, b) :: m) i = if a = i then b else Memory.read m i := rfl

/-- An index below every listed one reads as unlisted. -/
theorem Memory.read_below (m : List Host.Cell) (low i : Nat) (h : Memory.wfFrom low m = true) (hi : i < low) :
    Memory.read m i = Memory.unlisted := by
  induction m generalizing low with
  | nil => rfl
  | cons c m ih =>
    obtain ⟨a, b⟩ := c
    simp only [Memory.wfFrom, Bool.and_eq_true, decide_eq_true_eq] at h
    rw [Memory.read_cons, if_neg (by omega)]
    exact ih (a + 1) h.2 (by omega)

theorem Memory.wfFrom_mono (m : List Host.Cell) (low low' : Nat) (h : Memory.wfFrom low m = true) (hl : low' ≤ low) :
    Memory.wfFrom low' m = true := by
  cases m with
  | nil => rfl
  | cons c m =>
    obtain ⟨a, b⟩ := c
    simp only [Memory.wfFrom, Bool.and_eq_true, decide_eq_true_eq] at h ⊢
    exact ⟨⟨by omega, h.1.2⟩, h.2⟩

/-- A cell in front of cells above it keeps the form. -/
theorem Memory.cons_wfFrom (i : Nat) (v : Byte) (m : List Host.Cell) (low : Nat) (hi : low ≤ i)
    (h : Memory.wfFrom (i + 1) m = true) : Memory.wfFrom low (Memory.cons i v m) = true := by
  unfold Memory.cons
  split
  · exact Memory.wfFrom_mono m (i + 1) low h (by omega)
  · rename_i hv
    simp only [Memory.wfFrom, Bool.and_eq_true, decide_eq_true_eq]
    exact ⟨⟨hi, hv⟩, h⟩

theorem Memory.write_wfFrom (m : List Host.Cell) (low i : Nat) (v : Byte) (h : Memory.wfFrom low m = true)
    (hi : low ≤ i) : Memory.wfFrom low (Memory.write m i v) = true := by
  induction m generalizing low with
  | nil => exact Memory.cons_wfFrom i v [] low hi rfl
  | cons c m ih =>
    obtain ⟨a, b⟩ := c
    have h' := h
    simp only [Memory.wfFrom, Bool.and_eq_true, decide_eq_true_eq] at h
    simp only [Memory.write]
    split
    · rename_i hai
      simp only [Memory.wfFrom, Bool.and_eq_true, decide_eq_true_eq]
      exact ⟨h.1, ih (a + 1) h.2 (by omega)⟩
    · split
      · rename_i hai
        subst hai
        exact Memory.cons_wfFrom a v m low hi h.2
      · refine Memory.cons_wfFrom i v _ low hi ?_
        simp only [Memory.wfFrom, Bool.and_eq_true, decide_eq_true_eq]
        exact ⟨⟨by omega, h.1.2⟩, h.2⟩

/-- A write keeps the canonical form. -/
theorem Memory.write_wf (m : List Host.Cell) (i : Nat) (v : Byte) (h : Memory.wf m = true) :
    Memory.wf (Memory.write m i v) = true :=
  Memory.write_wfFrom m 0 i v h (Nat.zero_le i)

theorem Memory.cons_within (cap i : Nat) (v : Byte) (m : List Host.Cell) (h : Memory.within cap m = true)
    (hi : i < cap) : Memory.within cap (Memory.cons i v m) = true := by
  unfold Memory.cons
  split
  · exact h
  · simpa [Memory.within, hi] using h

/-- A write inside the storage keeps every cell inside it. -/
theorem Memory.write_within (cap : Nat) (m : List Host.Cell) (i : Nat) (v : Byte) (h : Memory.within cap m = true)
    (hi : i < cap) : Memory.within cap (Memory.write m i v) = true := by
  induction m with
  | nil => exact Memory.cons_within cap i v [] h hi
  | cons c m ih =>
    obtain ⟨a, b⟩ := c
    have h2 : a < cap ∧ Memory.within cap m = true := by simpa [Memory.within] using h
    simp only [Memory.write]
    split
    · have := ih h2.2
      simp [Memory.within] at this ⊢
      exact ⟨h2.1, this⟩
    · split
      · exact Memory.cons_within cap i v m h2.2 hi
      · exact Memory.cons_within cap i v _ h hi

theorem Memory.read_cons_cell (i : Nat) (v : Byte) (m : List Host.Cell)
    (h : Memory.read m i = Memory.unlisted) : Memory.read (Memory.cons i v m) i = v := by
  unfold Memory.cons
  split
  · rename_i hv
    rw [h, hv]
  · simp [Memory.read_cons]

theorem Memory.read_cons_ne (i j : Nat) (v : Byte) (m : List Host.Cell) (h : i ≠ j) :
    Memory.read (Memory.cons i v m) j = Memory.read m j := by
  unfold Memory.cons
  split
  · rfl
  · simp [Memory.read_cons, h]

theorem Memory.read_write_wfFrom (m : List Host.Cell) (low i : Nat) (v : Byte) (h : Memory.wfFrom low m = true) :
    Memory.read (Memory.write m i v) i = v := by
  induction m generalizing low with
  | nil => exact Memory.read_cons_cell i v [] rfl
  | cons c m ih =>
    obtain ⟨a, b⟩ := c
    simp only [Memory.wfFrom, Bool.and_eq_true, decide_eq_true_eq] at h
    simp only [Memory.write]
    split
    · rw [Memory.read_cons, if_neg (by omega)]
      exact ih (a + 1) h.2
    · split
      · rename_i hai
        subst hai
        exact Memory.read_cons_cell a v m (Memory.read_below m (a + 1) a h.2 (by omega))
      · refine Memory.read_cons_cell i v _ ?_
        rw [Memory.read_cons, if_neg (by omega)]
        exact Memory.read_below m (a + 1) i h.2 (by omega)

/-- A read after a write to the same index gives the byte written. -/
theorem Memory.read_write_same (m : List Host.Cell) (i : Nat) (v : Byte) (h : Memory.wf m = true) :
    Memory.read (Memory.write m i v) i = v :=
  Memory.read_write_wfFrom m 0 i v h

/-- A write leaves every other index alone. -/
theorem Memory.read_write_ne (m : List Host.Cell) (i j : Nat) (v : Byte) (h : i ≠ j) :
    Memory.read (Memory.write m i v) j = Memory.read m j := by
  induction m with
  | nil => exact Memory.read_cons_ne i j v [] h
  | cons c m ih =>
    obtain ⟨a, b⟩ := c
    simp only [Memory.write]
    split
    · simp only [Memory.read_cons, ih]
    · split
      · rename_i hai
        subst hai
        rw [Memory.read_cons_ne _ _ _ _ h, Memory.read_cons, if_neg h]
      · exact Memory.read_cons_ne i j v _ h

end Sys2Proof.Machine
end

