-- ==== Sys2Proof/Laws/State.lean ====
section
/-!
SUPPORT. What each update of the state leaves and sets, field by field.
-/

namespace Sys2Proof.Machine

@[simp] theorem State.respond_cap (s : State) (st : Status) (d : List Byte) : (s.respond st d).cap = s.cap := rfl
@[simp] theorem State.respond_mem (s : State) (st : Status) (d : List Byte) : (s.respond st d).mem = s.mem := rfl
@[simp] theorem State.respond_head (s : State) (st : Status) (d : List Byte) : (s.respond st d).head = s.head := rfl
@[simp] theorem State.respond_tail (s : State) (st : Status) (d : List Byte) : (s.respond st d).tail = s.tail := rfl
@[simp] theorem State.respond_full (s : State) (st : Status) (d : List Byte) : (s.respond st d).full = s.full := rfl
@[simp] theorem State.respond_status (s : State) (st : Status) (d : List Byte) : (s.respond st d).status = s.status := rfl
@[simp] theorem State.respond_hold (s : State) (st : Status) (d : List Byte) : (s.respond st d).hold = s.hold := rfl
@[simp] theorem State.respond_initialised (s : State) (st : Status) (d : List Byte) : (s.respond st d).initialised = s.initialised := rfl
@[simp] theorem State.respond_abandoned (s : State) (st : Status) (d : List Byte) : (s.respond st d).abandoned = s.abandoned := rfl
@[simp] theorem State.respond_moves (s : State) (st : Status) (d : List Byte) : (s.respond st d).moves = s.moves := rfl
@[simp] theorem State.respond_responses (s : State) (st : Status) (d : List Byte) : (s.respond st d).responses = s.responses ++ [{ status := st, data := d }] := rfl
@[simp] theorem State.respond_events (s : State) (st : Status) (d : List Byte) : (s.respond st d).events = s.events := rfl

@[simp] theorem State.respondNat_cap (s : State) (v : Nat) : (s.respondNat v).cap = s.cap := rfl
@[simp] theorem State.respondNat_mem (s : State) (v : Nat) : (s.respondNat v).mem = s.mem := rfl
@[simp] theorem State.respondNat_head (s : State) (v : Nat) : (s.respondNat v).head = s.head := rfl
@[simp] theorem State.respondNat_tail (s : State) (v : Nat) : (s.respondNat v).tail = s.tail := rfl
@[simp] theorem State.respondNat_full (s : State) (v : Nat) : (s.respondNat v).full = s.full := rfl
@[simp] theorem State.respondNat_status (s : State) (v : Nat) : (s.respondNat v).status = s.status := rfl
@[simp] theorem State.respondNat_hold (s : State) (v : Nat) : (s.respondNat v).hold = s.hold := rfl
@[simp] theorem State.respondNat_initialised (s : State) (v : Nat) : (s.respondNat v).initialised = s.initialised := rfl
@[simp] theorem State.respondNat_abandoned (s : State) (v : Nat) : (s.respondNat v).abandoned = s.abandoned := rfl
@[simp] theorem State.respondNat_moves (s : State) (v : Nat) : (s.respondNat v).moves = s.moves := rfl
@[simp] theorem State.respondNat_responses (s : State) (v : Nat) : (s.respondNat v).responses = s.responses ++ [{ status := .ok, data := bytesLE32 (BitVec.ofNat 32 v) }] := rfl
@[simp] theorem State.respondNat_events (s : State) (v : Nat) : (s.respondNat v).events = s.events := rfl

@[simp] theorem State.consume_cap (s : State) (n : Nat) : (s.consume n).cap = s.cap := rfl
@[simp] theorem State.consume_mem (s : State) (n : Nat) : (s.consume n).mem = s.mem := rfl
@[simp] theorem State.consume_head (s : State) (n : Nat) : (s.consume n).head = s.head := rfl
@[simp] theorem State.consume_tail (s : State) (n : Nat) : (s.consume n).tail = (s.tail + n) % s.cap := rfl
@[simp] theorem State.consume_full (s : State) (n : Nat) : (s.consume n).full = false := rfl
@[simp] theorem State.consume_status (s : State) (n : Nat) : (s.consume n).status = s.status := rfl
@[simp] theorem State.consume_hold (s : State) (n : Nat) : (s.consume n).hold = s.hold := rfl
@[simp] theorem State.consume_initialised (s : State) (n : Nat) : (s.consume n).initialised = s.initialised := rfl
@[simp] theorem State.consume_abandoned (s : State) (n : Nat) : (s.consume n).abandoned = s.abandoned := rfl
@[simp] theorem State.consume_moves (s : State) (n : Nat) : (s.consume n).moves = s.moves := rfl
@[simp] theorem State.consume_responses (s : State) (n : Nat) : (s.consume n).responses = s.responses := rfl
@[simp] theorem State.consume_events (s : State) (n : Nat) : (s.consume n).events = s.events := rfl

@[simp] theorem State.pushByte_cap (s : State) (b : Byte) : (s.pushByte b).cap = s.cap := rfl
@[simp] theorem State.pushByte_mem (s : State) (b : Byte) : (s.pushByte b).mem = Memory.write s.mem s.head b := rfl
@[simp] theorem State.pushByte_head (s : State) (b : Byte) : (s.pushByte b).head = (s.head + 1) % s.cap := rfl
@[simp] theorem State.pushByte_tail (s : State) (b : Byte) : (s.pushByte b).tail = (if s.full then (s.tail + 1) % s.cap else s.tail) := rfl
@[simp] theorem State.pushByte_full (s : State) (b : Byte) : (s.pushByte b).full = fullAfterPush ((s.head + 1) % s.cap) (if s.full then (s.tail + 1) % s.cap else s.tail) := rfl
@[simp] theorem State.pushByte_status (s : State) (b : Byte) : (s.pushByte b).status = s.status := rfl
@[simp] theorem State.pushByte_hold (s : State) (b : Byte) : (s.pushByte b).hold = s.hold := rfl
@[simp] theorem State.pushByte_initialised (s : State) (b : Byte) : (s.pushByte b).initialised = s.initialised := rfl
@[simp] theorem State.pushByte_abandoned (s : State) (b : Byte) : (s.pushByte b).abandoned = s.abandoned := rfl
@[simp] theorem State.pushByte_moves (s : State) (b : Byte) : (s.pushByte b).moves = s.moves := rfl
@[simp] theorem State.pushByte_responses (s : State) (b : Byte) : (s.pushByte b).responses = s.responses := rfl
@[simp] theorem State.pushByte_events (s : State) (b : Byte) : (s.pushByte b).events = s.events := rfl

@[simp] theorem State.raise_cap (s : State) (c : Cause) : (s.raise c).cap = s.cap := rfl
@[simp] theorem State.raise_mem (s : State) (c : Cause) : (s.raise c).mem = s.mem := rfl
@[simp] theorem State.raise_head (s : State) (c : Cause) : (s.raise c).head = s.head := rfl
@[simp] theorem State.raise_tail (s : State) (c : Cause) : (s.raise c).tail = s.tail := rfl
@[simp] theorem State.raise_full (s : State) (c : Cause) : (s.raise c).full = s.full := rfl
@[simp] theorem State.raise_status (s : State) (c : Cause) : (s.raise c).status = statusAfterFault s c := rfl
@[simp] theorem State.raise_hold (s : State) (c : Cause) : (s.raise c).hold = s.hold := rfl
@[simp] theorem State.raise_initialised (s : State) (c : Cause) : (s.raise c).initialised = s.initialised := rfl
@[simp] theorem State.raise_abandoned (s : State) (c : Cause) : (s.raise c).abandoned = s.abandoned := rfl
@[simp] theorem State.raise_moves (s : State) (c : Cause) : (s.raise c).moves = s.moves := rfl
@[simp] theorem State.raise_responses (s : State) (c : Cause) : (s.raise c).responses = s.responses ++ [{ status := c.response, data := [] }] := rfl
@[simp] theorem State.raise_events (s : State) (c : Cause) : (s.raise c).events = s.events := rfl

@[simp] theorem State.applyReset_cap (s : State) : (s.applyReset).cap = s.cap := rfl
@[simp] theorem State.applyReset_mem (s : State) : (s.applyReset).mem = [] := rfl
@[simp] theorem State.applyReset_head (s : State) : (s.applyReset).head = 0 := rfl
@[simp] theorem State.applyReset_tail (s : State) : (s.applyReset).tail = 0 := rfl
@[simp] theorem State.applyReset_full (s : State) : (s.applyReset).full = false := rfl
@[simp] theorem State.applyReset_status (s : State) : (s.applyReset).status = 0 := rfl
@[simp] theorem State.applyReset_hold (s : State) : (s.applyReset).hold = none := rfl
@[simp] theorem State.applyReset_initialised (s : State) : (s.applyReset).initialised = s.initialised := rfl
@[simp] theorem State.applyReset_abandoned (s : State) : (s.applyReset).abandoned = s.abandoned := rfl
@[simp] theorem State.applyReset_moves (s : State) : (s.applyReset).moves = s.moves := rfl
@[simp] theorem State.applyReset_responses (s : State) : (s.applyReset).responses = s.responses := rfl
@[simp] theorem State.applyReset_events (s : State) : (s.applyReset).events = s.events := rfl

@[simp] theorem State.assertReset_cap (s : State) : (assertReset s).cap = s.cap := rfl
@[simp] theorem State.assertReset_mem (s : State) : (assertReset s).mem = [] := rfl
@[simp] theorem State.assertReset_head (s : State) : (assertReset s).head = 0 := rfl
@[simp] theorem State.assertReset_tail (s : State) : (assertReset s).tail = 0 := rfl
@[simp] theorem State.assertReset_full (s : State) : (assertReset s).full = false := rfl
@[simp] theorem State.assertReset_status (s : State) : (assertReset s).status = 0 := rfl
@[simp] theorem State.assertReset_hold (s : State) : (assertReset s).hold = none := rfl
@[simp] theorem State.assertReset_initialised (s : State) : (assertReset s).initialised = true := rfl
@[simp] theorem State.assertReset_abandoned (s : State) : (assertReset s).abandoned = (s.initialised && (s.hold.isSome || s.abandoned)) := rfl
@[simp] theorem State.assertReset_moves (s : State) : (assertReset s).moves = s.moves := rfl
@[simp] theorem State.assertReset_responses (s : State) : (assertReset s).responses = s.responses := rfl
@[simp] theorem State.assertReset_events (s : State) : (assertReset s).events = s.events := rfl

@[simp] theorem State.withCommand_cap (s : State) (w : Word) (d : List Byte) : (s.withCommand w d).cap = s.cap := rfl
@[simp] theorem State.withCommand_mem (s : State) (w : Word) (d : List Byte) : (s.withCommand w d).mem = s.mem := rfl
@[simp] theorem State.withCommand_head (s : State) (w : Word) (d : List Byte) : (s.withCommand w d).head = s.head := rfl
@[simp] theorem State.withCommand_tail (s : State) (w : Word) (d : List Byte) : (s.withCommand w d).tail = s.tail := rfl
@[simp] theorem State.withCommand_full (s : State) (w : Word) (d : List Byte) : (s.withCommand w d).full = s.full := rfl
@[simp] theorem State.withCommand_status (s : State) (w : Word) (d : List Byte) : (s.withCommand w d).status = s.status := rfl
@[simp] theorem State.withCommand_hold (s : State) (w : Word) (d : List Byte) : (s.withCommand w d).hold = none := rfl
@[simp] theorem State.withCommand_initialised (s : State) (w : Word) (d : List Byte) : (s.withCommand w d).initialised = true := rfl
@[simp] theorem State.withCommand_abandoned (s : State) (w : Word) (d : List Byte) : (s.withCommand w d).abandoned = s.abandoned := rfl
@[simp] theorem State.withCommand_moves (s : State) (w : Word) (d : List Byte) : (s.withCommand w d).moves = .command w d :: s.moves := rfl
@[simp] theorem State.withCommand_responses (s : State) (w : Word) (d : List Byte) : (s.withCommand w d).responses = s.responses := rfl
@[simp] theorem State.withCommand_events (s : State) (w : Word) (d : List Byte) : (s.withCommand w d).events = s.events := rfl

@[simp] theorem State.resetAt_cap (cap : Nat) : (State.resetAt cap).cap = cap := rfl
@[simp] theorem State.resetAt_mem (cap : Nat) : (State.resetAt cap).mem = [] := rfl
@[simp] theorem State.resetAt_head (cap : Nat) : (State.resetAt cap).head = 0 := rfl
@[simp] theorem State.resetAt_tail (cap : Nat) : (State.resetAt cap).tail = 0 := rfl
@[simp] theorem State.resetAt_full (cap : Nat) : (State.resetAt cap).full = false := rfl
@[simp] theorem State.resetAt_status (cap : Nat) : (State.resetAt cap).status = 0 := rfl
@[simp] theorem State.resetAt_hold (cap : Nat) : (State.resetAt cap).hold = none := rfl
@[simp] theorem State.resetAt_initialised (cap : Nat) : (State.resetAt cap).initialised = true := rfl
@[simp] theorem State.resetAt_abandoned (cap : Nat) : (State.resetAt cap).abandoned = false := rfl
@[simp] theorem State.resetAt_moves (cap : Nat) : (State.resetAt cap).moves = [] := rfl
@[simp] theorem State.resetAt_responses (cap : Nat) : (State.resetAt cap).responses = [] := rfl
@[simp] theorem State.resetAt_events (cap : Nat) : (State.resetAt cap).events = [] := rfl

/-! The fields that RB_PUSH never writes (R100). -/

@[simp] theorem State.push_cap (s : State) (d : List Byte) : (s.push d).cap = s.cap := by
  unfold State.push
  induction d generalizing s with
  | nil => rfl
  | cons b d ih => simpa using ih (s.pushByte b)

@[simp] theorem State.push_status (s : State) (d : List Byte) : (s.push d).status = s.status := by
  unfold State.push
  induction d generalizing s with
  | nil => rfl
  | cons b d ih => simpa using ih (s.pushByte b)

@[simp] theorem State.push_hold (s : State) (d : List Byte) : (s.push d).hold = s.hold := by
  unfold State.push
  induction d generalizing s with
  | nil => rfl
  | cons b d ih => simpa using ih (s.pushByte b)

@[simp] theorem State.push_initialised (s : State) (d : List Byte) : (s.push d).initialised = s.initialised := by
  unfold State.push
  induction d generalizing s with
  | nil => rfl
  | cons b d ih => simpa using ih (s.pushByte b)

@[simp] theorem State.push_abandoned (s : State) (d : List Byte) : (s.push d).abandoned = s.abandoned := by
  unfold State.push
  induction d generalizing s with
  | nil => rfl
  | cons b d ih => simpa using ih (s.pushByte b)

@[simp] theorem State.push_moves (s : State) (d : List Byte) : (s.push d).moves = s.moves := by
  unfold State.push
  induction d generalizing s with
  | nil => rfl
  | cons b d ih => simpa using ih (s.pushByte b)

@[simp] theorem State.push_responses (s : State) (d : List Byte) : (s.push d).responses = s.responses := by
  unfold State.push
  induction d generalizing s with
  | nil => rfl
  | cons b d ih => simpa using ih (s.pushByte b)

@[simp] theorem State.push_events (s : State) (d : List Byte) : (s.push d).events = s.events := by
  unfold State.push
  induction d generalizing s with
  | nil => rfl
  | cons b d ih => simpa using ih (s.pushByte b)

theorem State.push_nil (s : State) : s.push [] = s := rfl

theorem State.push_cons (s : State) (b : Byte) (d : List Byte) : s.push (b :: d) = (s.pushByte b).push d := rfl

theorem State.push_append (s : State) (d e : List Byte) : s.push (d ++ e) = (s.push d).push e := by
  simp [State.push]

end Sys2Proof.Machine
end

