-- ==== Sys2Proof/Laws/Ring.lean ====
section
/-!
SUPPORT. The ring buffer's primitive effects on SIZE and content() (spec/10_state.md rules R23 and R24): what consuming and
pushing one byte do, once, under the index ranges of R22 and R25.
-/

namespace Sys2Proof.Machine

/-- `x mod CAP` for an index advanced by at most `CAP`. -/
theorem mod_once (x cap : Nat) (h : x < cap + cap) : (x < cap ∧ x % cap = x) ∨ (cap ≤ x ∧ x % cap = x - cap) := by
  by_cases hx : x < cap
  · exact .inl ⟨hx, Nat.mod_eq_of_lt hx⟩
  · exact .inr ⟨by omega, by rw [Nat.mod_eq_sub_mod (by omega), Nat.mod_eq_of_lt (by omega)]⟩

theorem State.size_full (s : State) (h : s.full = true) : s.size = s.cap := by simp [State.size, h]

/-- SIZE of a buffer that is not full, without the remainder. -/
theorem State.size_not_full (s : State) (hw : s.RingWf) (h : s.full = false) :
    (s.tail ≤ s.head ∧ s.size = s.head - s.tail) ∨ (s.head < s.tail ∧ s.size = s.head + s.cap - s.tail) := by
  obtain ⟨hh, ht, -⟩ := hw
  simp only [State.size, h, Bool.false_eq_true, if_false]
  by_cases hc : s.tail ≤ s.head
  · refine .inl ⟨hc, ?_⟩
    rw [Int.emod_eq_of_lt (by omega) (by omega)]
    omega
  · refine .inr ⟨by omega, ?_⟩
    rw [← Int.add_emod_right, Int.emod_eq_of_lt (by omega) (by omega)]
    omega

/-- SIZE never exceeds CAP. -/
theorem State.size_le_cap (s : State) (hw : s.RingWf) : s.size ≤ s.cap := by
  cases hf : s.full
  · have := s.size_not_full hw hf
    obtain ⟨hh, ht, -⟩ := hw
    omega
  · rw [s.size_full hf]

/-- A buffer that is not full has room. -/
theorem State.size_lt_cap (s : State) (hw : s.RingWf) (hf : s.full = false) : s.size < s.cap := by
  have := s.size_not_full hw hf
  obtain ⟨hh, ht, -⟩ := hw
  omega

/-- The write index is where the unread window ends. -/
theorem State.head_eq (s : State) (hw : s.RingWf) : s.head = (s.tail + s.size) % s.cap := by
  have hc := s.size_le_cap hw
  have ht := hw.2.1
  have hm := mod_once (s.tail + s.size) s.cap (by omega)
  cases hf : s.full
  · have hs := s.size_not_full hw hf
    have hh := hw.1
    omega
  · have hs := s.size_full hf
    have hht := hw.2.2 hf
    omega

@[simp] theorem State.content_length (s : State) : s.content.length = s.size := by simp [State.content]

/-- Position `i` of content() (R41). -/
theorem State.content_at (s : State) (i : Nat) (h : i < s.size) :
    s.content[i]? = some (Memory.read s.mem ((s.tail + i) % s.cap)) := by
  simp [State.content, h]

/-- content() is determined by SIZE and the window's bytes. -/
theorem State.content_eq_of (s : State) (bs : List Byte) (hl : bs.length = s.size)
    (h : ∀ i, i < s.size → bs[i]? = some (Memory.read s.mem ((s.tail + i) % s.cap))) : s.content = bs := by
  apply List.ext_getElem?
  intro i
  by_cases hi : i < s.size
  · rw [s.content_at i hi, h i hi]
  · rw [List.getElem?_eq_none (by simpa using hi), List.getElem?_eq_none (by omega)]

/-- Responding touches no ring state. -/
@[simp] theorem State.size_respond (s : State) (st : Status) (d : List Byte) : (s.respond st d).size = s.size := rfl

@[simp] theorem State.content_respond (s : State) (st : Status) (d : List Byte) :
    (s.respond st d).content = s.content := rfl

@[simp] theorem State.size_raise (s : State) (c : Cause) : (s.raise c).size = s.size := rfl

@[simp] theorem State.content_raise (s : State) (c : Cause) : (s.raise c).content = s.content := rfl

/-- Consuming keeps the index ranges. -/
theorem State.consume_ringWf (s : State) (n : Nat) (hw : s.RingWf) : (s.consume n).RingWf := by
  obtain ⟨hh, ht, -⟩ := hw
  exact ⟨hh, Nat.mod_lt _ (Nat.lt_of_le_of_lt (Nat.zero_le _) ht), by simp⟩

/-- SIZE after a consume of at most SIZE bytes; the case `n = 0` on a full buffer is R107's. -/
theorem State.size_consume (s : State) (n : Nat) (hw : s.RingWf) (hn : n ≤ s.size)
    (hz : ¬(n = 0 ∧ s.full = true)) : (s.consume n).size = s.size - n := by
  have hc := s.size_le_cap hw
  have h' := State.size_not_full _ (s.consume_ringWf n hw) rfl
  obtain ⟨hh, ht, hfull⟩ := hw
  have hm := mod_once (s.tail + n) s.cap (by omega)
  rw [State.consume_tail, State.consume_head, State.consume_cap] at h'
  cases hf : s.full
  · have hs := s.size_not_full ⟨hh, ht, hfull⟩ hf
    omega
  · have hs := s.size_full hf
    have := hfull hf
    have : n ≠ 0 := fun h => hz ⟨h, hf⟩
    omega

/-- content() after a consume: the first `n` bytes are gone. -/
theorem State.content_consume (s : State) (n : Nat) (hw : s.RingWf) (hn : n ≤ s.size)
    (hz : ¬(n = 0 ∧ s.full = true)) : (s.consume n).content = s.content.drop n := by
  have hs := s.size_consume n hw hn hz
  apply State.content_eq_of
  · simp [hs]
  · intro i hi
    rw [List.getElem?_drop, s.content_at _ (by omega)]
    simp only [State.consume_mem, State.consume_tail, State.consume_cap, Nat.mod_add_mod, Nat.add_assoc]

/-- Pushing a byte keeps the index ranges. -/
theorem State.pushByte_ringWf (s : State) (b : Byte) (hw : s.RingWf) : (s.pushByte b).RingWf := by
  obtain ⟨hh, ht, -⟩ := hw
  have hpos : 0 < s.cap := by omega
  refine ⟨Nat.mod_lt _ hpos, ?_, by simp [fullAfterPush]⟩
  simp only [State.pushByte_tail, State.pushByte_cap]
  split
  · exact Nat.mod_lt _ hpos
  · exact ht

/-- SIZE after one byte is pushed: one more, but never above CAP. -/
theorem State.size_pushByte (s : State) (b : Byte) (hw : s.RingWf) :
    (s.pushByte b).size = if s.full then s.cap else s.size + 1 := by
  have hw' := s.pushByte_ringWf b hw
  have hh := hw.1
  have ht := hw.2.1
  cases hf : s.full
  · have hs := s.size_not_full hw hf
    have hm := mod_once (s.head + 1) s.cap (by omega)
    simp only [Bool.false_eq_true, if_false]
    cases hf' : (s.pushByte b).full
    · have h' := State.size_not_full _ hw' hf'
      have hne : (s.head + 1) % s.cap ≠ s.tail := by simpa [hf, fullAfterPush] using hf'
      rw [State.pushByte_tail, State.pushByte_head, State.pushByte_cap, hf, if_neg (by simp)] at h'
      omega
    · have he : (s.head + 1) % s.cap = s.tail := by simpa [hf, fullAfterPush] using hf'
      rw [State.size_full _ hf', State.pushByte_cap]
      omega
  · rw [State.size_full]
    · simp
    · simp [hf, fullAfterPush, hw.2.2 hf]

/-- content() after one byte is pushed: the byte joins at the end; a full buffer loses its oldest byte. -/
theorem State.content_pushByte (s : State) (b : Byte) (hw : s.RingWf) (hm : Memory.wf s.mem = true) :
    (s.pushByte b).content = (if s.full then s.content.drop 1 else s.content) ++ [b] := by
  have hs := s.size_pushByte b hw
  have hhd := s.head_eq hw
  have hsc := s.size_le_cap hw
  have hcap : 0 < s.cap := by have := hw.1; omega
  cases hf : s.full
  · have hlt := s.size_lt_cap hw hf
    simp only [hf, Bool.false_eq_true, if_false] at hs ⊢
    apply State.content_eq_of
    · simp [hs]
    · intro i hi
      rw [hs] at hi
      simp only [State.pushByte_mem, State.pushByte_tail, State.pushByte_cap, hf, Bool.false_eq_true, if_false]
      by_cases hil : i < s.size
      · rw [List.getElem?_append_left (by simpa using hil), s.content_at i hil, Memory.read_write_ne]
        rw [hhd]
        have ht := hw.2.1
        have h1 := mod_once (s.tail + s.size) s.cap (by omega)
        have h2 := mod_once (s.tail + i) s.cap (by omega)
        omega
      · have hie : i = s.size := by omega
        subst hie
        rw [List.getElem?_append_right (by simp), ← hhd, Memory.read_write_same _ _ _ hm]
        simp
  · have hsz := s.size_full hf
    have hht := hw.2.2 hf
    have ht := hw.2.1
    simp only [hf, if_true] at hs ⊢
    apply State.content_eq_of
    · simp [hs, hsz]; omega
    · intro i hi
      rw [hs] at hi
      simp only [State.pushByte_mem, State.pushByte_tail, State.pushByte_cap, hf, if_true, Nat.mod_add_mod]
      by_cases hil : i < s.cap - 1
      · rw [List.getElem?_append_left (by simp [hsz]; omega), List.getElem?_drop, s.content_at _ (by omega),
          Memory.read_write_ne, ← Nat.add_assoc]
        have h1 := mod_once (s.tail + 1 + i) s.cap (by omega)
        omega
      · have hie : i = s.cap - 1 := by omega
        subst hie
        rw [List.getElem?_append_right (by simp [hsz])]
        have : (s.tail + 1 + (s.cap - 1)) % s.cap = s.head := by
          rw [show s.tail + 1 + (s.cap - 1) = s.tail + s.cap by omega, Nat.add_mod_right, Nat.mod_eq_of_lt ht, hht]
        rw [this, Memory.read_write_same _ _ _ hm]
        simp [hsz]

/-- Pushing a byte keeps the storage canonical and inside its bounds. -/
theorem State.pushByte_memWf (s : State) (b : Byte) (hh : s.head < s.cap) (hm : s.MemWf) : (s.pushByte b).MemWf :=
  ⟨Memory.write_wf _ _ _ hm.1, Memory.write_within _ _ _ _ hm.2 hh⟩

/-- RB_PUSH's loop keeps both. -/
theorem State.push_wf (s : State) (d : List Byte) (hr : s.RingWf) (hm : s.MemWf) :
    (s.push d).RingWf ∧ (s.push d).MemWf := by
  induction d generalizing s with
  | nil => exact ⟨hr, hm⟩
  | cons b d ih => exact ih (s.pushByte b) (s.pushByte_ringWf b hr) (s.pushByte_memWf b hr.1 hm)

end Sys2Proof.Machine
end

