-- ==== Sys2Proof/Laws/Parser.lean ====
section
/-!
SUPPORT. The drain loop (spec/42_frame_parser.md): what one iteration can do, what the whole loop can do, and that its fuel
is enough.
-/

namespace Sys2Proof.Machine

/-- An event of phase `DISPATCH` is one the port can carry (R80). -/
theorem dispatch_event_wf (type : BitVec 8) (seq : BitVec 16) (psize : Nat) (p : List Byte) (e : Event)
    (hp : p.length ≤ 65535) (h : dispatch type seq psize p = .ok e) : e.wf = true := by
  unfold dispatch at h
  split at h
  · split at h
    · cases h
    · simp only at h
      split at h
      · cases h
      · cases h
        have := (byteAt p 8).isLt
        simp [Event.wf, recordsOf]
        omega
  · cases h
    simpa [Event.wf] using hp

/-- An iteration that discards consumes at least one buffered byte, and does nothing else. -/
theorem iterate_discard (s s' : State) (why : Discard) (h : iterate s = .discard why s') :
    ∃ n, 1 ≤ n ∧ n ≤ s.size ∧ s' = s.consume n := by
  unfold iterate at h
  split at h
  · cases h
  · rename_i hsz
    have h11 : minBuf = 11 := rfl
    simp only at h
    split at h
    · cases h
      exact ⟨1, by omega, by omega, rfl⟩
    · split at h
      · cases h
      · rename_i ht
        have : hdr = 7 := rfl
        split at h
        · split at h
          · cases h
          · cases h
            exact ⟨_, by omega, by omega, rfl⟩
        · cases h
          exact ⟨_, by omega, by omega, rfl⟩

/-- An iteration that emits consumes a frame of at least 11 buffered bytes, and its event is one the port can carry. -/
theorem iterate_emit (s s' : State) (e : Event) (h : iterate s = .emit e s') :
    ∃ n, minBuf ≤ n ∧ n ≤ s.size ∧ s' = s.consume n ∧ e.wf = true := by
  unfold iterate at h
  split at h
  · cases h
  · simp only at h
    split at h
    · cases h
    · split at h
      · cases h
      · rename_i ht
        have h11 : minBuf = 11 := rfl
        have : hdr = 7 := rfl
        have : trl = 4 := rfl
        split at h
        · split at h
          · rename_i hd
            cases h
            refine ⟨_, ?_, Nat.le_of_not_lt ht, rfl, dispatch_event_wf _ _ _ _ e ?_ hd⟩
            · omega
            · have := (le16 (s.peek hdr) 2).isLt
              simp only [payloadOf, List.length_take]
              omega
          · cases h
        · cases h

/-- An iteration that stops has found fewer than 11 bytes, or a frame longer than what is buffered (R160). -/
theorem iterate_stop (s : State) (ph : Phase) (h : iterate s = .stop ph) :
    s.size < minBuf ∨ (le16 (s.peek hdr) 0 = magic ∧ s.size < hdr + (le16 (s.peek hdr) 2).toNat + trl) := by
  unfold iterate at h
  split at h
  · exact .inl ‹_›
  · simp only at h
    split at h
    · cases h
    · rename_i hm
      split at h
      · exact .inr ⟨not_not.mp hm, ‹_›⟩
      · split at h
        · split at h <;> cases h
        · cases h

/-- Everything a drain can do: it consumes buffered bytes a positive number at a time, and ends by answering the count or
by offering an event. -/
theorem drain_next (P : State → Prop) (step : ∀ s n, P s → 1 ≤ n → n ≤ s.size → P (s.consume n))
    (fuel m : Nat) (s t : State) (hp : P s) (h : drain fuel m s = .next t) :
    ∃ u, P u ∧ ((∃ ph, iterate u = .stop ph ∧ t = u.respondNat m)
      ∨ ∃ v e n, P v ∧ iterate v = .emit e u ∧ minBuf ≤ n ∧ n ≤ v.size ∧ u = v.consume n ∧ e.wf = true
          ∧ t = { u with hold := some { event := e, emitted := m } }) := by
  induction fuel generalizing s with
  | zero => cases h
  | succ fuel ih =>
    rw [drain] at h
    split at h
    · rename_i ph hi
      cases h
      exact ⟨s, hp, .inl ⟨ph, hi, rfl⟩⟩
    · rename_i why s' hi
      obtain ⟨n, h1, h2, rfl⟩ := iterate_discard s s' why hi
      exact ih (s.consume n) (step s n hp h1 h2) h
    · rename_i e s' hi
      cases h
      obtain ⟨n, h1, h2, rfl, he⟩ := iterate_emit s s' e hi
      have h11 : minBuf = 11 := rfl
      exact ⟨s.consume n, step s n hp (by omega) h2, .inr ⟨s, e, n, hp, hi, h1, h2, rfl, he, rfl⟩⟩

/-- The fuel is enough: with more of it than bytes buffered a drain ends in a next state (R161). -/
theorem drain_ends (fuel m : Nat) (s : State) (hw : s.RingWf) (hf : s.size < fuel) : ∃ t, drain fuel m s = .next t := by
  induction fuel generalizing s with
  | zero => omega
  | succ fuel ih =>
    rw [drain]
    split
    · exact ⟨_, rfl⟩
    · rename_i why s' hi
      obtain ⟨n, h1, h2, rfl⟩ := iterate_discard s s' why hi
      refine ih _ (s.consume_ringWf n hw) ?_
      rw [s.size_consume n hw h2 (by omega)]
      omega
    · exact ⟨_, rfl⟩

/-- More fuel than bytes buffered changes nothing. -/
theorem drain_fuel (fuel fuel' m : Nat) (s : State) (hw : s.RingWf) (hf : s.size < fuel) (hf' : s.size < fuel') :
    drain fuel m s = drain fuel' m s := by
  induction fuel generalizing s fuel' with
  | zero => omega
  | succ fuel ih =>
    cases fuel' with
    | zero => omega
    | succ fuel' =>
      rw [drain, drain]
      split
      · rfl
      · rename_i why s' hi
        obtain ⟨n, h1, h2, rfl⟩ := iterate_discard s s' why hi
        have hs := s.size_consume n hw h2 (by omega)
        exact ih fuel' _ (s.consume_ringWf n hw) (by omega) (by omega)
      · rfl

/-- A drain whose first iteration discards goes on as a drain of what is left. -/
theorem runDrain_discard (m : Nat) (s : State) (hw : s.RingWf) (why : Discard) (n : Nat)
    (hi : iterate s = .discard why (s.consume n)) (h1 : 1 ≤ n) (h2 : n ≤ s.size) :
    runDrain m s = runDrain m (s.consume n) := by
  have hs := s.size_consume n hw h2 (by omega)
  unfold runDrain
  rw [drain, hi]
  exact drain_fuel _ _ m _ (s.consume_ringWf n hw) (by omega) (by omega)

theorem runDrain_stop (m : Nat) (s : State) (ph : Phase) (hi : iterate s = .stop ph) :
    runDrain m s = .next (s.respondNat m) := by
  unfold runDrain
  rw [drain, hi]

theorem runDrain_emit (m : Nat) (s s' : State) (e : Event) (hi : iterate s = .emit e s') :
    runDrain m s = .next { s' with hold := some { event := e, emitted := m } } := by
  unfold runDrain
  rw [drain, hi]

end Sys2Proof.Machine
end

