-- ==== Sys2Proof/Laws/PerInstr.lean ====
section
/-!
SUPPORT. Statements made for every instruction, constructor by constructor.
-/

namespace Sys2Proof.Laws.Framing

/-- The encoded word asks for exactly the data bytes that are encoded with it (spec/30_encoding.md rule R65). -/
def Statement (i : Instr) : Prop := i.wf = true → dataLength (encodeWord i) = (encodeData i).length

theorem opcOf_wordOf (o s : BitVec 8) (m : BitVec 16) : opcOf (wordOf o s m) = o := by
  apply BitVec.eq_of_getLsbD_eq
  intro i hi
  simp only [opcOf, wordOf, BitVec.getLsbD_extractLsb', BitVec.getLsbD_append, decide_eq_true hi, Bool.true_and]
  rw [if_neg (by omega), if_neg (by omega)]
  congr 1
  omega

theorem subOf_wordOf (o s : BitVec 8) (m : BitVec 16) : subOf (wordOf o s m) = s := by
  apply BitVec.eq_of_getLsbD_eq
  intro i hi
  simp only [subOf, wordOf, BitVec.getLsbD_extractLsb', BitVec.getLsbD_append, decide_eq_true hi, Bool.true_and]
  rw [if_neg (by omega), if_pos (by omega)]
  congr 1
  omega

theorem immOf_wordOf (o s : BitVec 8) (m : BitVec 16) : immOf (wordOf o s m) = m := by
  apply BitVec.eq_of_getLsbD_eq
  intro i hi
  simp only [immOf, wordOf, BitVec.getLsbD_extractLsb', BitVec.getLsbD_append, decide_eq_true hi, Bool.true_and]
  rw [if_pos (by omega)]
  congr 1
  omega

theorem dataLength_wordOf (o s : BitVec 8) (m : BitVec 16) :
    dataLength (wordOf o s m) = if carriesData o then m.toNat else 0 := by
  rw [dataLength, opcOf_wordOf, immOf_wordOf]

theorem lengthImm_toNat (d : List Byte) (h : fitsImm d = true) : (lengthImm d).toNat = d.length := by
  have : d.length ≤ 65535 := by simpa [fitsImm] using h
  simp only [lengthImm, BitVec.toNat_ofNat]
  omega

theorem nop : Statement .nop := fun _ => rfl

theorem rbPush (d : List Byte) : Statement (.rbPush d) := fun h => by
  rw [encodeWord, dataLength_wordOf]
  exact lengthImm_toNat d h

theorem rbPeek (len : BitVec 16) : Statement (.rbPeek len) := fun _ => by
  rw [encodeWord, dataLength_wordOf]
  rfl

theorem rbRead (len : BitVec 16) : Statement (.rbRead len) := fun _ => by
  rw [encodeWord, dataLength_wordOf]
  rfl

theorem rbConsume (len : BitVec 16) : Statement (.rbConsume len) := fun _ => by
  rw [encodeWord, dataLength_wordOf]
  rfl

theorem rbSize : Statement .rbSize := fun _ => rfl

theorem rbFree : Statement .rbFree := fun _ => rfl

theorem rbCap : Statement .rbCap := fun _ => rfl

theorem crcCompute (d : List Byte) : Statement (.crcCompute d) := fun h => by
  rw [encodeWord, dataLength_wordOf]
  exact lengthImm_toNat d h

theorem crcValidate (d : List Byte) : Statement (.crcValidate d) := fun h => by
  rw [encodeWord, dataLength_wordOf]
  exact lengthImm_toNat d h

theorem parseDrain : Statement .parseDrain := fun _ => rfl

theorem buildHeartbeat (seq : BitVec 16) : Statement (.buildHeartbeat seq) := fun _ => by
  rw [encodeWord, dataLength_wordOf]
  rfl

theorem regRead (r : Reg) : Statement (.regRead r) := fun _ => by
  rw [encodeWord, dataLength_wordOf]
  rfl

theorem reset : Statement .reset := fun _ => rfl

end Sys2Proof.Laws.Framing
end

