-- ==== Sys2Proof/Laws/Step.lean ====
section
/-!
SUPPORT. What the shared checks, a command at the port and a step can do, once each.
-/

namespace Sys2Proof.Machine

/-- Step 1 of spec/60_exceptions.md rule R223: a command that reaches a next state was answered `FAULTED`, or ran. -/
theorem whenNotFaulted_next (s t : State) (run : Result) (h : whenNotFaulted s run = .next t) :
    (s.faulted = true ∧ t = s.respond .faulted []) ∨ (s.faulted = false ∧ run = .next t) := by
  unfold whenNotFaulted at h
  split at h
  · cases h
    exact .inl ⟨‹_›, rfl⟩
  · rename_i hf
    exact .inr ⟨by simpa using hf, h⟩

theorem whenNotFaulted_run (s : State) (run : Result) (h : s.faulted = false) : whenNotFaulted s run = run := by
  simp [whenNotFaulted, h]

theorem whenNotFaulted_faulted (s : State) (run : Result) (h : s.faulted = true) :
    whenNotFaulted s run = .next (s.respond .faulted []) := by
  simp [whenNotFaulted, h]

/-- An illegal word always reaches a next state: refused as `FAULTED`, or a fault taken (R223). -/
theorem illegalCommand_next (opc : BitVec 8) (s : State) :
    illegalCommand opc s = .next (s.respond .faulted []) ∨ illegalCommand opc s = .next (s.raise .illegalCommand) := by
  unfold illegalCommand whenNotFaulted
  split
  · exact .inr rfl
  · split
    · exact .inl rfl
    · exact .inr rfl

/-- The status a fault records is one of the three (R221). -/
theorem statusAfterFault_wf (s : State) (c : Cause) (h : s.StatusWf) :
    statusAfterFault s c = 0 ∨ statusAfterFault s c = statusOf .illegalCommand
      ∨ statusAfterFault s c = statusOf .consumeOverrun ∨ statusAfterFault s c = statusOf .zeroConsumeFull := by
  unfold statusAfterFault
  split
  · exact h
  · cases c <;> simp

/-- A move found behind waiting commands is an acceptance or the reset input. -/
theorem firstSignal_some (ms rest : List HostMove) (m : HostMove) (h : firstSignal ms = some (m, rest)) :
    m = .acceptEvent ∨ m = .resetInput := by
  induction ms generalizing rest with
  | nil => cases h
  | cons c ms ih =>
    cases c with
    | command w d =>
      rw [firstSignal] at h
      split at h
      · cases h
      · rename_i m' rest' he
        cases h
        exact ih rest' he
    | acceptEvent => cases h; exact .inl rfl
    | resetInput => cases h; exact .inr rfl

/-- The move an initialised block takes: a command only when nothing is on offer (R265, R266). -/
theorem nextMove_command (s : State) (w : Word) (d : List Byte) (rest : List HostMove)
    (h : s.nextMove = some (.command w d, rest)) : s.hold = none ∧ s.moves = .command w d :: rest := by
  unfold State.nextMove at h
  split at h
  · rcases firstSignal_some _ _ _ h with h | h <;> cases h
  · rename_i hh
    split at h
    · cases h
    · rename_i ms
      cases h
      exact ⟨hh, ms⟩

/-- A command at the port is refused, an illegal word, or an instruction that runs (R63, R66). -/
theorem issue_cases (w : Word) (d : List Byte) (s : State) :
    issue w d s = .refused .dataLength ∨ issue w d s = illegalCommand (opcOf w) s
      ∨ ∃ i, decodeCommand w d = .ok i ∧ issue w d s = exec i s := by
  unfold issue
  split <;> simp_all

/-- A command the block takes is issued as the last command, which nothing has abandoned. -/
@[simp] theorem takeMove_command (w : Word) (d : List Byte) (s : State) :
    takeMove (.command w d) s = issue w d { s with abandoned := false } := rfl

/-- Everything a step can do. -/
theorem step_cases (s : State) :
    step s = .next s
      ∨ (s.initialised = false ∧ ∃ m rest, s.moves = m :: rest ∧ step s = takeMoveBeforeReset m { s with moves := rest })
      ∨ (s.initialised = true ∧ ∃ m rest, s.nextMove = some (m, rest) ∧ step s = takeMove m { s with moves := rest }) := by
  by_cases hi : s.initialised = true
  · rw [step, if_pos hi, stepAfterReset]
    split
    · exact .inl rfl
    · rename_i m rest hm
      exact .inr (.inr ⟨hi, m, rest, hm, rfl⟩)
  · rw [step, if_neg hi, stepBeforeReset]
    split
    · exact .inl rfl
    · rename_i m rest hm
      exact .inr (.inl ⟨by simpa using hi, m, rest, hm, rfl⟩)

end Sys2Proof.Machine
end

