-- ==== Sys2Proof/Tests/Slice0.lean ====
section
/-!
SUPPORT. The model's own tests: ill-formed terms, words written out from spec/30_encoding.md rules R60 and R62, and single
steps whose expected values are vectors of spec/95_test_vectors.md (named in each comment).
-/

namespace Sys2Proof.Tests

open Sys2Proof.Machine

set_option Elab.async false

/-! ## WellFormed: each check refuses a term one byte too long (R65, `IMM_MAX` of spec/00_scope.md rule R9) -/

theorem test_push_of_65536_bytes_is_ill_formed : (Instr.rbPush (List.replicate 65536 0)).wf = false := by
  rw [Instr.wf, fitsImm, List.length_replicate]; rfl

theorem test_crc_compute_of_65536_bytes_is_ill_formed : (Instr.crcCompute (List.replicate 65536 0)).wf = false := by
  rw [Instr.wf, fitsImm, List.length_replicate]; rfl

theorem test_crc_validate_of_65536_bytes_is_ill_formed : (Instr.crcValidate (List.replicate 65536 0)).wf = false := by
  rw [Instr.wf, fitsImm, List.length_replicate]; rfl

/-- The longest push there is. -/
theorem test_push_of_65535_bytes_is_well_formed : (Instr.rbPush (List.replicate 65535 0)).wf = true := by
  rw [Instr.wf, fitsImm, List.length_replicate]; rfl

/-! ## Decoding: words bit by bit, `OPC` in bits 31:24, `SUB` in bits 23:16, `IMM` in bits 15:0 (R60) -/

theorem test_decode_nop : decodeCommand 0b00000000_00000000_0000000000000000 [] = .ok .nop := by decide +kernel

theorem test_decode_rbPush :
    decodeCommand 0b00000001_00000000_0000000000000011 [0x0A, 0x0B, 0x0C] = .ok (.rbPush [0x0A, 0x0B, 0x0C]) := by
  decide +kernel

theorem test_decode_rbPeek :
    decodeCommand 0b00000010_00000000_1000000000000001 [] = .ok (.rbPeek 0x8001) := by decide +kernel

theorem test_decode_rbRead :
    decodeCommand 0b00000011_00000000_0100000000000010 [] = .ok (.rbRead 0x4002) := by decide +kernel

theorem test_decode_rbConsume :
    decodeCommand 0b00000100_00000000_0010000000000100 [] = .ok (.rbConsume 0x2004) := by decide +kernel

theorem test_decode_rbSize : decodeCommand 0b00000101_00000000_0000000000000000 [] = .ok .rbSize := by decide +kernel

theorem test_decode_rbFree : decodeCommand 0b00000110_00000000_0000000000000000 [] = .ok .rbFree := by decide +kernel

theorem test_decode_rbCap : decodeCommand 0b00000111_00000000_0000000000000000 [] = .ok .rbCap := by decide +kernel

theorem test_decode_crcCompute :
    decodeCommand 0b00010000_00000000_0000000000000001 [0x61] = .ok (.crcCompute [0x61]) := by decide +kernel

theorem test_decode_crcValidate :
    decodeCommand 0b00010001_00000000_0000000000000010 [0x01, 0x02] = .ok (.crcValidate [0x01, 0x02]) := by
  decide +kernel

theorem test_decode_parseDrain :
    decodeCommand 0b00100000_00000000_0000000000000000 [] = .ok .parseDrain := by decide +kernel

theorem test_decode_buildHeartbeat :
    decodeCommand 0b00110000_00000000_0001001000110100 [] = .ok (.buildHeartbeat 0x1234) := by decide +kernel

/-- The register numbers 0 to 6 of spec/10_state.md rule R29. -/
theorem test_decode_regRead :
    decodeCommand 0b01000000_00000000_0000000000000000 [] = .ok (.regRead .capacity)
      ∧ decodeCommand 0b01000000_00000001_0000000000000000 [] = .ok (.regRead .head)
      ∧ decodeCommand 0b01000000_00000010_0000000000000000 [] = .ok (.regRead .tail)
      ∧ decodeCommand 0b01000000_00000011_0000000000000000 [] = .ok (.regRead .fullReg)
      ∧ decodeCommand 0b01000000_00000100_0000000000000000 [] = .ok (.regRead .sizeReg)
      ∧ decodeCommand 0b01000000_00000101_0000000000000000 [] = .ok (.regRead .freeReg)
      ∧ decodeCommand 0b01000000_00000110_0000000000000000 [] = .ok (.regRead .status) := by
  decide +kernel

theorem test_decode_reset : decodeCommand 0b11110000_00000000_0000000000000000 [] = .ok .reset := by decide +kernel

/-- The illegal words of V-EXC-1, V-EXC-2 and V-CTL-5, each by its own name (R63). -/
theorem test_decode_illegal_words :
    decodeCommand 0x08000000 [] = .error .reservedOpcode
      ∧ decodeCommand 0x12000000 [] = .error .reservedOpcode
      ∧ decodeCommand 0xFF000000 [] = .error .reservedOpcode
      ∧ decodeCommand 0x01010000 [] = .error .reservedSub
      ∧ decodeCommand 0x05000001 [] = .error .reservedImm
      ∧ decodeCommand 0x20000001 [] = .error .reservedImm
      ∧ decodeCommand 0xF0000001 [] = .error .reservedImm
      ∧ decodeCommand 0x40070000 [] = .error .reservedRegister := by
  decide +kernel

/-- A byte-wide port sends the word little-endian (R60), and a short stream is no command (R67). -/
theorem test_decode_bytes :
    decode [0x02, 0x00, 0x00, 0x03, 0x00] = .ok (.rbRead 2, [0x00])
      ∧ decode [0x02, 0x00, 0x00, 0x01, 0xAA] = .error .truncated := by
  decide +kernel

/-! ## One step each -/

/-- What the vectors' tables show of a state: the last response, and `H T F SZ`. -/
def shown (r : Result) : Option (Option Response × Nat × Nat × Bool × Nat) :=
  match r with
  | .next s => some (s.responses.getLast?, s.head, s.tail, s.full, s.size)
  | _ => none

/-- What REG_READ 6 would return after a step. -/
def statusAfter (r : Result) : Option Word :=
  match r with
  | .next s => some s.statusReg
  | _ => none

/-- The block after the host has issued one command. -/
def issued (s : State) (w : Word) (d : List Byte) : Result := step (s.withCommand w d)

/-- `[01 02 03]` in a buffer of 4, at `H T F SZ` 3 0 0 3 (V-RB-1). -/
def three : State := { State.resetAt 4 with mem := [(0, 1), (1, 2), (2, 3)], head := 3 }

/-- `[02 03 04 05]` in a full buffer of 4, at 1 1 1 4 (after V-RB-2). -/
def overwritten : State :=
  { State.resetAt 4 with mem := [(0, 5), (1, 2), (2, 3), (3, 4)], head := 1, tail := 1, full := true }

/-- `[04 05]` left in a buffer of 4, at 1 3 0 2 (after V-RB-5). -/
def twoLeft : State := { overwritten with tail := 3, full := false }

/-- `[03 04 05 06]` across the wrap of a full buffer of 4, at 2 2 1 4 (after V-RB-14). -/
def wrapped : State :=
  { State.resetAt 4 with mem := [(0, 5), (1, 6), (2, 3), (3, 4)], head := 2, tail := 2, full := true }

/-- `[01 02 03 04]` in a full buffer of 4, at 0 0 1 4 (V-RB-20). -/
def fullAtZero : State :=
  { State.resetAt 4 with mem := [(0, 1), (1, 2), (2, 3), (3, 4)], full := true }

/-- A buffer of `cap` bytes that holds `bs` from index 0 (`bs` shorter than `cap`), each byte nonzero or unlisted. -/
def holding (cap : Nat) (bs : List Byte) : State := (State.resetAt cap).push bs

/-- The heartbeat frames of the frame table. -/
def hb5 : List Byte := [0x5A, 0xA5, 0x01, 0x00, 0x05, 0x00, 0x02, 0x01, 0x2D, 0xBD, 0xE4, 0x0D]
def hb6 : List Byte := [0x5A, 0xA5, 0x01, 0x00, 0x06, 0x00, 0x02, 0x01, 0xC3, 0x12, 0x51, 0x1F]
/-- `hb5` with its payload byte 00 (L1-5). -/
def hb5Corrupt : List Byte := [0x5A, 0xA5, 0x01, 0x00, 0x05, 0x00, 0x02, 0x00, 0x2D, 0xBD, 0xE4, 0x0D]
/-- `f_c0`: a type 1 frame with no record. -/
def fc0 : List Byte :=
  [0x5A, 0xA5, 0x09, 0x00, 0x10, 0x00, 0x01, 0xEF, 0xCD, 0xAB, 0x89, 0x67, 0x45, 0x23, 0x01, 0x00, 0xC3, 0x24, 0xEF,
   0xB4]

/-- V-CTL-1. -/
theorem test_nop : shown (issued twoLeft 0x00000000 []) = some (some ⟨.ok, []⟩, 1, 3, false, 2) := by decide +kernel

/-- V-CTL-6. -/
theorem test_nop_reserved_imm :
    shown (issued (State.resetAt 8) 0x00000001 []) = some (some ⟨.illegal, []⟩, 0, 0, false, 0)
      ∧ statusAfter (issued (State.resetAt 8) 0x00000001 []) = some 0x11 := by
  decide +kernel

/-- V-RB-2: the fourth byte fills the buffer, the fifth evicts the first. -/
theorem test_push_evicts : issued three 0x01000002 [4, 5] = .next { overwritten with responses := [⟨.ok, []⟩] } := by
  rfl

/-- V-RB-8: 7 bytes into a buffer of 3. -/
theorem test_push_longer_than_capacity :
    shown (issued (State.resetAt 3) 0x01000007 [1, 2, 3, 4, 5, 6, 7]) = some (some ⟨.ok, []⟩, 1, 1, true, 3)
      ∧ ((State.resetAt 3).push [1, 2, 3, 4, 5, 6, 7]).content = [5, 6, 7] := by
  decide +kernel

/-- V-RB-3. -/
theorem test_peek_too_long :
    shown (issued overwritten 0x02000005 []) = some (some ⟨.insufficient, []⟩, 1, 1, true, 4) := by decide +kernel

/-- V-RB-15: across the wrap. -/
theorem test_peek_wraps :
    shown (issued wrapped 0x02000004 []) = some (some ⟨.ok, [3, 4, 5, 6]⟩, 2, 2, true, 4) := by decide +kernel

/-- V-RB-5. -/
theorem test_read : shown (issued overwritten 0x03000002 []) = some (some ⟨.ok, [2, 3]⟩, 1, 3, false, 2) := by
  decide +kernel

/-- V-RB-22. -/
theorem test_read_zero_full :
    shown (issued fullAtZero 0x03000000 []) = some (some ⟨.unsettled, []⟩, 0, 0, true, 4)
      ∧ statusAfter (issued fullAtZero 0x03000000 []) = some 0x31 := by
  decide +kernel

/-- V-RB-7. -/
theorem test_consume_overrun :
    shown (issued twoLeft 0x04000003 []) = some (some ⟨.overrun, []⟩, 1, 3, false, 2)
      ∧ statusAfter (issued twoLeft 0x04000003 []) = some 0x21 := by
  decide +kernel

/-- V-RB-20. -/
theorem test_consume_zero_full :
    shown (issued fullAtZero 0x04000000 []) = some (some ⟨.unsettled, []⟩, 0, 0, true, 4)
      ∧ statusAfter (issued fullAtZero 0x04000000 []) = some 0x31 := by
  decide +kernel

/-- V-RB-6. -/
theorem test_size : shown (issued twoLeft 0x05000000 []) = some (some ⟨.ok, [2, 0, 0, 0]⟩, 1, 3, false, 2) := by
  decide +kernel

/-- V-RB-21: the block of V-RB-20 is faulted. -/
theorem test_size_while_faulted :
    shown (issued { fullAtZero with status := 0x31 } 0x05000000 []) = some (some ⟨.faulted, []⟩, 0, 0, true, 4) := by
  decide +kernel

/-- V-RB-6. -/
theorem test_free : shown (issued twoLeft 0x06000000 []) = some (some ⟨.ok, [2, 0, 0, 0]⟩, 1, 3, false, 2) := by
  decide +kernel

/-- V-RB-6. -/
theorem test_cap : shown (issued twoLeft 0x07000000 []) = some (some ⟨.ok, [4, 0, 0, 0]⟩, 1, 3, false, 2) := by
  decide +kernel

/-- V-CRC-11. -/
theorem test_crc_compute :
    shown (issued (State.resetAt 8) 0x10000009 [0x31, 0x32, 0x33, 0x34, 0x35, 0x36, 0x37, 0x38, 0x39]) =
      some (some ⟨.ok, [0x26, 0x39, 0xF4, 0xCB]⟩, 0, 0, false, 0) := by
  decide +kernel

/-- V-CRC-2. -/
theorem test_crc_of_one_zero : crc32 [0x00] = 0xD202EF8D := by decide +kernel

/-- V-CRC-13. -/
theorem test_crc_validate_corrupt :
    shown (issued (State.resetAt 8) 0x1100000C hb5Corrupt) = some (some ⟨.ok, [0x00]⟩, 0, 0, false, 0) := by
  decide +kernel

/-- V-CRC-14 and V-CRC-12. -/
theorem test_crc_validate :
    shown (issued (State.resetAt 8) 0x11000003 [1, 2, 3]) = some (some ⟨.insufficient, []⟩, 0, 0, false, 0)
      ∧ shown (issued (State.resetAt 8) 0x1100000C hb5) = some (some ⟨.ok, [0x01]⟩, 0, 0, false, 0) := by
  decide +kernel

/-- L1-5: the corrupted frame is discarded whole, the frame after it offered. -/
theorem test_drain_discards_and_offers :
    (match exec .parseDrain (holding 64 (hb5Corrupt ++ hb6)) with
     | .next s => some (s.hold, s.tail, s.responses)
     | _ => none) = some (some ⟨.unknown 2 6 [0x01], 0⟩, 24, []) := by
  decide +kernel

/-- L1-7: scenario B. -/
theorem test_drain_finger_sample :
    (match exec .parseDrain (holding 64 fc0) with
     | .next s => some (s.hold, s.size)
     | _ => none) = some (some ⟨.fingerSample 0x0010 0x0123456789ABCDEF [], 0⟩, 0) := by
  decide +kernel

/-- L1-6, its last step: the host accepts, the drain finds nothing more and answers 1. -/
theorem test_acceptance_ends_the_drain :
    (match step { State.resetAt 64 with hold := some ⟨.unknown 2 5 [0x01], 0⟩, moves := [.acceptEvent] } with
     | .next s => some (s.events, s.responses, s.hold)
     | _ => none) = some ([.unknown 2 5 [0x01]], [⟨.ok, [1, 0, 0, 0]⟩], none) := by
  decide +kernel

/-- R250 and R269: the reset input abandons the drain on hold, which never responds, so the run has not ended; a NOP that
responds after it is a last command that has. -/
theorem test_abandoned_drain_has_not_responded :
    let held := { State.resetAt 64 with hold := some ⟨.unknown 2 5 [0x01], 0⟩, moves := [.resetInput] }
    let after := { State.resetAt 64 with abandoned := true }
    step held = .next after ∧ ¬after.RunEnded
      ∧ step { after with moves := [.command 0x00000000 []] } =
        .next { State.resetAt 64 with responses := [⟨.ok, []⟩] } :=
  ⟨rfl, by decide, rfl⟩

/-- R269: a run of one NOP from the reset state, and where it ends. -/
theorem test_run_of_one_nop :
    Run 1 { State.resetAt 64 with moves := [.command 0x00000000 []] }
      { State.resetAt 64 with responses := [⟨.ok, []⟩] } :=
  ⟨by decide, rfl, by decide⟩

/-- V-BLD-3. -/
theorem test_build_heartbeat :
    shown (issued (State.resetAt 8) 0x3000FFFF []) =
      some (some ⟨.ok, [0x5A, 0xA5, 0x01, 0x00, 0xFF, 0xFF, 0x02, 0x01, 0x03, 0x7F, 0xA7, 0x5A]⟩, 0, 0, false, 0) := by
  decide +kernel

/-- V-BLD-5. -/
theorem test_build_heartbeat_reserved_sub :
    shown (issued (State.resetAt 8) 0x30010005 []) = some (some ⟨.illegal, []⟩, 0, 0, false, 0) := by decide +kernel

/-- V-CTL-2, registers 0 to 5, in the state it gives (H 5, T 2, F 0 in a buffer of 6). -/
theorem test_reg_read :
    let s := { State.resetAt 6 with head := 5, tail := 2 }
    [(0x40000000 : Word), 0x40010000, 0x40020000, 0x40030000, 0x40040000, 0x40050000].map
        (fun w => (shown (issued s w [])).map Prod.fst) =
      [6, 5, 2, 0, 3, 3].map (fun b : Byte => some (some ⟨.ok, [b, 0, 0, 0]⟩)) := by
  decide +kernel

/-- V-EXC-4, its last command. -/
theorem test_reg_read_status_while_faulted :
    shown (issued { State.resetAt 8 with status := 0x21 } 0x40060000 []) =
      some (some ⟨.ok, [0x21, 0, 0, 0]⟩, 0, 0, false, 0) := by
  decide +kernel

/-- V-CTL-4. -/
theorem test_reset :
    shown (issued { twoLeft with status := 0x21 } 0xF0000000 []) = some (some ⟨.ok, []⟩, 0, 0, false, 0)
      ∧ statusAfter (issued { twoLeft with status := 0x21 } 0xF0000000 []) = some 0 := by
  decide +kernel

/-- V-EXC-3, its third and seventh commands: data of a refused command is discarded; an illegal word whose OPC is RESET's is
`ILLEGAL` even while faulted, and keeps the first cause (R223). -/
theorem test_commands_while_faulted :
    shown (issued { State.resetAt 8 with status := 0x11 } 0x01000002 [1, 2]) = some (some ⟨.faulted, []⟩, 0, 0, false, 0)
      ∧ shown (issued { State.resetAt 8 with status := 0x11 } 0xF0000001 []) =
        some (some ⟨.illegal, []⟩, 0, 0, false, 0)
      ∧ statusAfter (issued { State.resetAt 8 with status := 0x11 } 0xF0000001 []) = some 0x11 := by
  decide +kernel

/-- V-EVT-2 and V-EVT-4. -/
theorem test_event_bytes :
    (Event.unknown 7 3 [0xDE, 0xAD]).bytes = [0x02, 0x07, 0x03, 0x00, 0x02, 0x00, 0xDE, 0xAD]
      ∧ (Event.fingerSample 0x0010 0x0123456789ABCDEF []).bytes =
        [0x01, 0x10, 0x00, 0xEF, 0xCD, 0xAB, 0x89, 0x67, 0x45, 0x23, 0x01, 0x00] := by
  decide +kernel

end Sys2Proof.Tests
end

