-- ==== Sys2Proof/Tests/Witnesses.lean ====
section
/-!
SUPPORT. For every obligation that has hypotheses, a concrete state and operands that meet all of them together; for one
with several clauses, a witness for each, at the boundary of its range where it has one. A witness that looks at an outcome
shows that the hypothesis 'answers a next state' is met.
-/

namespace Sys2Proof.Tests

open Sys2Proof.Machine

set_option Elab.async false

/-- `r` is a next state with `p`. -/
def nextWith (r : Result) (p : State → Bool) : Bool :=
  match r with
  | .next t => p t
  | _ => false

/-- `s` with the host's moves. -/
def withMoves (s : State) (ms : List HostMove) : State := { s with moves := ms }

/-- A block of capacity 64 that holds the first heartbeat's event on offer. -/
def offering : State := { State.resetAt 64 with head := 12, tail := 12, hold := some ⟨.unknown 2 5 [0x01], 0⟩ }

/-- A faulted block (CONSUME_OVERRUN). -/
def faulted : State := { State.resetAt 4 with status := 0x21 }

/-- A block before its first reset. -/
def unreset : State := { State.resetAt 4 with initialised := false }

/-! ## Encoding -/

theorem witness_DecodingUndoesEncoding :
    (Instr.rbPush (List.replicate 65535 0)).wf = true ∧ (Instr.crcCompute []).wf = true
      ∧ (Instr.regRead .status).wf = true :=
  ⟨test_push_of_65535_bytes_is_well_formed, rfl, rfl⟩

theorem witness_EncodingUndoesDecoding :
    decodeCommand 0x01000001 [0xAA] = .ok (.rbPush [0xAA]) ∧ decodeCommand 0x0200FFFF [] = .ok (.rbPeek 0xFFFF)
      ∧ decodeCommand 0x40060000 [] = .ok (.regRead .status) := by
  decide +kernel

/-- Both branches of `k`, and a word that is illegal. -/
theorem witness_ByteStreamIsFramedByTheWord :
    ([0xAA, 0xBB] : List Byte).length =
        (if opcOf 0x01000002 = 0x01 ∨ opcOf 0x01000002 = 0x10 ∨ opcOf 0x01000002 = 0x11 then (immOf 0x01000002).toNat
         else 0)
      ∧ ([] : List Byte).length =
        (if opcOf 0x08000002 = 0x01 ∨ opcOf 0x08000002 = 0x10 ∨ opcOf 0x08000002 = 0x11 then (immOf 0x08000002).toNat
         else 0) := by
  decide +kernel

/-- A legal word; an illegal word on a block with no fault, on a faulted one, and with RESET's opcode on a faulted one. -/
theorem witness_LegalWordsRunAndIllegalWordsFault :
    let ready := fun (s : State) (w : Word) =>
      let t := withMoves s [.command w []]
      t.initialised = true ∧ t.hold = none ∧ t.moves = .command w [] :: [] ∧ ([] : List Byte).length = dataLength w
    (ready three 0x40060000 ∧ LegalWord 0x40060000)
      ∧ (ready three 0x40070000 ∧ ¬LegalWord 0x40070000 ∧ three.faulted = false)
      ∧ (ready faulted 0x08000000 ∧ ¬LegalWord 0x08000000 ∧ faulted.faulted = true ∧ opcOf 0x08000000 ≠ 0x40
        ∧ opcOf 0x08000000 ≠ 0xF0)
      ∧ (ready faulted 0xF0000001 ∧ ¬LegalWord 0xF0000001 ∧ opcOf 0xF0000001 = 0xF0) := by
  decide +kernel

/-! ## One step and the host interface -/

theorem witness_StepRunsTheDecodedInstruction :
    let s := withMoves three [.command 0x01000001 [9]]
    s.initialised = true ∧ s.hold = none ∧ s.moves = .command 0x01000001 [9] :: []
      ∧ decodeCommand 0x01000001 [9] = .ok (.rbPush [9]) := by
  decide +kernel

theorem witness_WrongDataLengthIsRefused :
    let s := withMoves three [.command 0x01000002 [9]]
    s.initialised = true ∧ s.hold = none ∧ s.moves = .command 0x01000002 [9] :: []
      ∧ ([9] : List Byte).length ≠ dataLength 0x01000002 := by
  decide +kernel

theorem witness_CommandBeforeFirstResetIsRefused :
    let s := withMoves unreset [.command 0x00000000 []]
    s.initialised = false ∧ s.moves = .command 0x00000000 [] :: [] := by
  decide +kernel

/-- With an event on offer, and before the first reset. -/
theorem witness_ResetSourcesGiveTheResetState :
    ((withMoves offering [.resetInput]).moves = .resetInput :: [] ∧ offering.initialised = true ∧ offering.hold ≠ none)
      ∧ (withMoves unreset [.resetInput]).moves = .resetInput :: [] := by
  decide +kernel

/-- With a command waiting and with none. -/
theorem witness_HoldLastsUntilTheHostActs :
    (offering.initialised = true ∧ offering.hold = some ⟨.unknown 2 5 [0x01], 0⟩)
      ∧ (∀ m ∈ (withMoves offering [.command 0 []]).moves, ∃ w d, m = .command w d)
      ∧ (∀ m ∈ offering.moves, ∃ w d, m = .command w d) := by
  refine ⟨by decide +kernel, ?_, ?_⟩
  · intro m hm
    exact ⟨0, [], by simpa [withMoves] using hm⟩
  · intro m hm
    exact absurd hm (List.not_mem_nil)

/-- The drain ends after the acceptance, and it offers a second event. -/
theorem witness_AcceptanceDeliversTheOfferedEvent :
    let s := withMoves offering [.acceptEvent]
    let s' := { (State.resetAt 64).push hb6 with
      head := 24, tail := 12, mem := ((State.resetAt 64).push (List.replicate 12 0 ++ hb6)).mem,
      hold := some ⟨.unknown 2 5 [0x01], 0⟩, moves := [.acceptEvent] }
    (s.Wf ∧ s.initialised = true ∧ s.hold = some ⟨.unknown 2 5 [0x01], 0⟩ ∧ s.moves = .acceptEvent :: []
        ∧ nextWith (step s) (fun t => t.hold.isNone) = true)
      ∧ (s'.Wf ∧ s'.initialised = true ∧ s'.hold = some ⟨.unknown 2 5 [0x01], 0⟩ ∧ s'.moves = .acceptEvent :: []
        ∧ nextWith (step s') (fun t => t.hold == some ⟨.unknown 2 6 [0x01], 1⟩) = true) := by
  decide +kernel

theorem witness_IdleBlockKeepsItsState : overwritten.moves = [] := rfl

/-! ## Faults -/

theorem witness_FaultedBlockRunsOnlyRegReadAndReset :
    runsWhileFaulted (.rbPush [1]) = false ∧ faulted.faulted = true := by
  decide +kernel

/-- A faulted block's next move is no reset when it is another word. -/
theorem no_reset_next (w : Word) (hw : w ≠ 0xF0000000) :
    (∀ rest, (withMoves faulted [.command w []]).nextMove ≠ some (.resetInput, rest))
      ∧ ∀ d rest, (withMoves faulted [.command w []]).nextMove ≠ some (.command 0xF0000000 d, rest) := by
  have h0 : (withMoves faulted [.command w []]).nextMove = some (.command w [], []) := rfl
  rw [h0]
  refine ⟨by simp, ?_⟩
  intro d rest h
  simp only [Option.some.injEq, Prod.mk.injEq, HostMove.command.injEq] at h
  exact hw h.1.1

/-- A refused command, an illegal word with RESET's opcode, and REG_READ. -/
theorem witness_FaultIsStickyUntilReset :
    let ready := fun (w : Word) =>
      let s := withMoves faulted [.command w []]
      s.faulted = true ∧ nextWith (step s) (fun _ => true) = true
        ∧ (∀ rest, s.nextMove ≠ some (.resetInput, rest))
        ∧ (∀ d rest, s.nextMove ≠ some (.command 0xF0000000 d, rest))
    ready 0x05000000 ∧ ready 0xF0000001 ∧ ready 0x40060000 :=
  ⟨⟨by decide +kernel, by decide +kernel, no_reset_next _ (by decide)⟩,
    ⟨by decide +kernel, by decide +kernel, no_reset_next _ (by decide)⟩,
    ⟨by decide +kernel, by decide +kernel, no_reset_next _ (by decide)⟩⟩

/-- Each cause, on a block with no fault and on a faulted one. -/
theorem witness_RaisingRecordsTheFirstCause :
    let listed := fun (c : Cause) (code : BitVec 4) (status : Status) =>
      c = .illegalCommand ∧ code = 1 ∧ status = .illegal ∨ c = .consumeOverrun ∧ code = 2 ∧ status = .overrun
        ∨ c = .zeroConsumeFull ∧ code = 3 ∧ status = .unsettled
    (listed .illegalCommand 1 .illegal ∧ listed .consumeOverrun 2 .overrun ∧ listed .zeroConsumeFull 3 .unsettled)
      ∧ three.faulted = false ∧ faulted.faulted = true := by
  decide +kernel

/-- `OVERRUN` of RB_CONSUME and `UNSETTLED` of RB_READ; no decoded instruction answers `ILLEGAL`. -/
theorem witness_FaultingCommandChangesOnlyStatus :
    nextWith (exec (.rbConsume 3) twoLeft) (fun t => t.responses == twoLeft.responses ++ [⟨.overrun, []⟩]) = true
      ∧ nextWith (exec (.rbRead 0) fullAtZero)
        (fun t => t.responses == fullAtZero.responses ++ [⟨.unsettled, []⟩]) = true := by
  decide +kernel

theorem witness_OnlyConsumingCommandsFault :
    (∀ len, Instr.parseDrain ≠ .rbRead len) ∧ (∀ len, Instr.parseDrain ≠ .rbConsume len) ∧ three.faulted = false
      ∧ nextWith (exec .parseDrain three) (fun t => !t.faulted) = true
      ∧ nextWith (acceptOffered offering) (fun t => !t.faulted) = true := by
  refine ⟨?_, ?_, by decide +kernel, by decide +kernel, by decide +kernel⟩
  · intro len h
    cases h
  · intro len h
    cases h

/-! ## Ring buffer commands -/

/-- Room for all, filling exactly, and evicting: `SIZE + n` below, at and above `CAP`. -/
theorem witness_PushAppendsAndEvictsTheOldest :
    (three.Wf ∧ three.faulted = false)
      ∧ three.size + ([] : List Byte).length < three.cap ∧ three.size + [4].length = three.cap
      ∧ three.cap < three.size + [4, 5].length := by
  decide +kernel

/-- The index clauses: `k = 0`, `k = n - 1`, and a byte a later one overwrites (`n > k + CAP`). -/
theorem witness_PushRealisesTheIndices :
    (overwritten.Wf ∧ overwritten.faulted = false) ∧ (0 < [7, 8].length ∧ [7, 8].length ≤ 0 + overwritten.cap)
      ∧ (4 < [1, 2, 3, 4, 5].length ∧ [1, 2, 3, 4, 5].length ≤ 4 + overwritten.cap)
      ∧ ¬[1, 2, 3, 4, 5].length ≤ 0 + overwritten.cap := by
  decide +kernel

/-- A stored and a kept index. -/
theorem witness_PushFrame :
    nextWith (exec (.rbPush [4]) three) (fun _ => true) = true
      ∧ (∀ k, k < [4].length → 0 ≠ (three.head + k) % three.cap) := by
  decide +kernel

/-- `SIZE < len` and `len <= SIZE`, at the boundary. -/
theorem witness_PeekReturnsWithoutConsuming :
    three.faulted = false ∧ three.size < (4 : BitVec 16).toNat ∧ ¬three.size < (3 : BitVec 16).toNat := by
  decide +kernel

/-- Both clauses at the boundary, and length 0 on a buffer that is not full. -/
theorem witness_ReadIsPeekAndConsume :
    (overwritten.Wf ∧ overwritten.faulted = false)
      ∧ (¬((5 : BitVec 16) = 0 ∧ overwritten.full = true) ∧ overwritten.size < (5 : BitVec 16).toNat)
      ∧ (¬((4 : BitVec 16) = 0 ∧ overwritten.full = true) ∧ (4 : BitVec 16).toNat ≤ overwritten.size)
      ∧ (three.Wf ∧ ¬((0 : BitVec 16) = 0 ∧ three.full = true) ∧ (0 : BitVec 16).toNat ≤ three.size) := by
  decide +kernel

theorem witness_ConsumeDiscardsTheOldest :
    (overwritten.Wf ∧ overwritten.faulted = false ∧ ¬((4 : BitVec 16) = 0 ∧ overwritten.full = true)
        ∧ (4 : BitVec 16).toNat ≤ overwritten.size)
      ∧ (three.Wf ∧ three.faulted = false ∧ ¬((0 : BitVec 16) = 0 ∧ three.full = true)
        ∧ (0 : BitVec 16).toNat ≤ three.size) := by
  decide +kernel

/-- One byte more than is buffered, on a buffer that is not full, a full one, and an empty one. -/
theorem witness_ConsumeOverrunFaults :
    (three.faulted = false ∧ three.size < (4 : BitVec 16).toNat)
      ∧ (overwritten.faulted = false ∧ overwritten.size < (5 : BitVec 16).toNat)
      ∧ ((State.resetAt 4).faulted = false ∧ (State.resetAt 4).size < (1 : BitVec 16).toNat) := by
  decide +kernel

theorem witness_LengthZeroConsumeOnFullFaults :
    (fullAtZero.Wf ∧ fullAtZero.faulted = false ∧ fullAtZero.full = true)
      ∧ (three.Wf ∧ three.faulted = false ∧ three.full = false) := by
  decide +kernel

/-- Answers `OK`, `INSUFFICIENT` (which keeps TAIL, FULL and STATUS) and a fault's (which keeps TAIL and FULL). -/
theorem witness_ReadAndConsumeFrame :
    nextWith (exec (.rbRead 2) overwritten) (fun t => t.responses == [⟨.ok, [2, 3]⟩]) = true
      ∧ nextWith (exec (.rbRead 5) overwritten) (fun t => t.responses == [⟨.insufficient, []⟩]) = true
      ∧ nextWith (exec (.rbConsume 5) overwritten) (fun t => t.responses == [⟨.overrun, []⟩]) = true := by
  decide +kernel

theorem witness_SizeFreeAndCapAnswer : overwritten.faulted = false := by decide +kernel

/-- Full, not full with `CAP - 1` bytes, and empty. -/
theorem witness_SizeAndFreeInvariants :
    (overwritten.Wf ∧ overwritten.full = true) ∧ (three.Wf ∧ three.full = false) ∧ (State.resetAt 1).Wf := by
  decide +kernel

/-- A push that fills the buffer exactly, and a read. -/
theorem witness_FifoLaw :
    (three.Wf ∧ three.faulted = false ∧ three.size + (pushedBy (.rbPush [4])).length ≤ three.cap
        ∧ nextWith (exec (.rbPush [4]) three) (fun _ => true) = true)
      ∧ (three.size + (pushedBy (.rbRead 2)).length ≤ three.cap
        ∧ nextWith (exec (.rbRead 2) three) (fun _ => true) = true) := by
  decide +kernel

/-! ## CRC and builder -/

/-- The three answers of CRC_VALIDATE: too short (3 bytes), right (4 bytes), wrong (4 bytes). -/
theorem witness_CrcCommandsAnswer :
    three.faulted = false ∧ ([1, 2, 3] : List Byte).length < 4
      ∧ (¬([0, 0, 0, 0] : List Byte).length < 4 ∧ crc32 (([0, 0, 0, 0] : List Byte).take 0) = le32 [0, 0, 0, 0] 0)
      ∧ crc32 (([1, 0, 0, 0] : List Byte).take 0) ≠ le32 [1, 0, 0, 0] 0 := by
  decide +kernel

theorem witness_EveryHeartbeatValidates : three.faulted = false := by decide +kernel

/-- The first bit of the first byte and the last bit of the last. -/
theorem witness_SingleBitErrorsAreDetected :
    (crcOk hb5 = true ∧ 0 < hb5.length ∧ 0 < 8) ∧ (11 < hb5.length ∧ 7 < 8) := by
  decide +kernel

theorem witness_EncodedFramesPassTheCheck :
    ([] : List Byte).length ≤ 65535 ∧ (List.replicate 65535 (0 : Byte)).length ≤ 65535 := by
  rw [List.length_replicate]
  decide

theorem witness_HeartbeatIsTheTwelveBytes :
    three.faulted = false
      ∧ hb5.take 8 =
        [0x5A, 0xA5, 0x01, 0x00, (5 : BitVec 16).extractLsb' 0 8, (5 : BitVec 16).extractLsb' 8 8, 0x02, 0x01]
      ∧ (0x0DE4BD2D : Word) = crc32 (hb5.take 8) := by
  decide +kernel

/-! ## Control and observation -/

theorem witness_NopAnswersOk : twoLeft.faulted = false := by decide +kernel

theorem witness_ReadOnlyCommandsChangeNothing :
    (readsOnly (.rbPeek 5) = true ∧ nextWith (exec (.rbPeek 5) three) (fun _ => true) = true)
      ∧ (readsOnly .nop = true ∧ nextWith (exec .nop faulted) (fun _ => true) = true) := by
  decide +kernel

/-! ## The drain -/

/-- A drain that ends at once and one that offers. -/
theorem witness_DrainAlwaysEnds :
    (three.Wf ∧ three.faulted = false ∧ three.hold = none)
      ∧ ((holding 64 hb5).Wf ∧ (holding 64 hb5).faulted = false ∧ (holding 64 hb5).hold = none) := by
  decide +kernel

theorem witness_DrainFrame :
    nextWith (exec .parseDrain (holding 64 hb5)) (fun t => t.hold.isSome) = true
      ∧ nextWith (exec .parseDrain three) (fun t => t.hold.isNone) = true := by
  decide +kernel

/-- A resync, a discarded frame, an emitted frame, and a drain that reaches a next state. -/
theorem witness_DrainConsumesOnlyWhatIsBuffered :
    (match iterate (holding 64 (List.replicate 11 0)) with
      | .discard .resync _ => true
      | _ => false) = true
      ∧ (match iterate (holding 64 hb5Corrupt) with
          | .discard .crcDiscard _ => true
          | _ => false) = true
      ∧ (match iterate (holding 64 hb5) with
          | .emit _ _ => true
          | _ => false) = true
      ∧ nextWith (exec .parseDrain three) (fun _ => true) = true
      ∧ nextWith (acceptOffered offering) (fun _ => true) = true := by
  decide +kernel

theorem witness_ShortBufferStopsTheDrain :
    (holding 64 (hb5.take 10)).faulted = false ∧ (holding 64 (hb5.take 10)).size < 11 := by
  decide +kernel

/-- Each of the two magic bytes wrong, with exactly 11 bytes buffered. -/
theorem witness_MagicMismatchDropsOneByte :
    let s := holding 64 (0x00 :: (hb5.drop 1).take 10)
    let s' := holding 64 (0x5A :: 0x00 :: (hb5.drop 2).take 9)
    (s.Wf ∧ s.faulted = false ∧ 11 ≤ s.size ∧ ¬(byteAt s.content 0 = 0x5A ∧ byteAt s.content 1 = 0xA5))
      ∧ (s'.Wf ∧ s'.faulted = false ∧ 11 ≤ s'.size
        ∧ ¬(byteAt s'.content 0 = 0x5A ∧ byteAt s'.content 1 = 0xA5)) := by
  decide +kernel

/-- One byte short of the frame. -/
theorem witness_IncompleteFrameIsKept :
    let s := holding 64 (hb5.take 11)
    s.faulted = false ∧ HeaderSays s.content 1 ∧ s.size < 7 + 1 + 4 := by
  decide +kernel

theorem witness_BadChecksumDropsTheFrame :
    let s := holding 64 (hb5Corrupt ++ hb6)
    s.Wf ∧ s.faulted = false ∧ s.content = hb5Corrupt ++ hb6 ∧ HeaderSays hb5Corrupt 1
      ∧ hb5Corrupt.length = 7 + 1 + 4 ∧ crcOk hb5Corrupt = false := by
  decide +kernel

/-- A type 1 frame with a payload of 8 bytes, and one of 9 bytes that says it has one record. -/
theorem witness_MalformedFingerSampleIsDropped :
    let f := encodeFrame 1 3 (List.replicate 8 0)
    let g := encodeFrame 1 3 (List.replicate 8 0 ++ [1])
    ((holding 64 f).Wf ∧ (holding 64 f).faulted = false ∧ (holding 64 f).content = f ++ [] ∧ HeaderSays f 8
        ∧ f.length = 7 + 8 + 4 ∧ crcOk f = true ∧ byteAt f 6 = 1 ∧ 8 < 9)
      ∧ ((holding 64 g).Wf ∧ (holding 64 g).faulted = false ∧ (holding 64 g).content = g ++ [] ∧ HeaderSays g 9
        ∧ g.length = 7 + 9 + 4 ∧ crcOk g = true ∧ byteAt g 6 = 1 ∧ 9 < 9 + 32 * (byteAt g 15).toNat) := by
  decide +kernel

/-- With a payload, and with none (type 0). -/
theorem witness_UnknownFrameIsOffered :
    let f := encodeFrame 0 0xFFFF []
    ((holding 64 (hb5 ++ hb6)).Wf ∧ (holding 64 (hb5 ++ hb6)).faulted = false
        ∧ (holding 64 (hb5 ++ hb6)).hold = none
        ∧ (holding 64 (hb5 ++ hb6)).content = hb5 ++ hb6 ∧ HeaderSays hb5 1 ∧ hb5.length = 7 + 1 + 4
        ∧ crcOk hb5 = true ∧ byteAt hb5 6 ≠ 1)
      ∧ ((holding 64 f).Wf ∧ (holding 64 f).faulted = false ∧ (holding 64 f).hold = none
        ∧ (holding 64 f).content = f ++ [] ∧ HeaderSays f 0
        ∧ f.length = 7 + 0 + 4 ∧ crcOk f = true ∧ byteAt f 6 ≠ 1) := by
  decide +kernel

/-- One record with a trailing payload byte; and no record (`f_c0`). -/
theorem witness_FingerSampleIsOffered :
    let rs : List Record := [⟨0x3FF0000000000000, 0, 0x7FF8000000000001, 0x80000001, 0x42120000⟩]
    let f := encodeFrame 1 0x0102 (fingerPayload 1000 rs [0xEE])
    ((holding 64 f).Wf ∧ (holding 64 f).faulted = false ∧ (holding 64 f).hold = none ∧ rs.length ≤ 255
        ∧ (fingerPayload 1000 rs [0xEE]).length ≤ 65535 ∧ (holding 64 f).content = f ++ [])
      ∧ ((holding 64 fc0).Wf ∧ (holding 64 fc0).faulted = false ∧ (holding 64 fc0).hold = none
        ∧ ([] : List Record).length ≤ 255
        ∧ (fingerPayload 0x0123456789ABCDEF [] []).length ≤ 65535
        ∧ (holding 64 fc0).content = encodeFrame 1 0x0010 (fingerPayload 0x0123456789ABCDEF [] []) ++ []) := by
  decide +kernel

/-- Ended on fewer than 11 bytes, on a frame that is not complete, and after an acceptance. -/
theorem witness_DrainEndsShortOrAtALongerTotal :
    (three.Wf ∧ three.faulted = false ∧ three.hold = none
        ∧ nextWith (exec .parseDrain three) (fun t => t.hold.isNone && decide (t.size < 11)) = true)
      ∧ ((holding 64 (0x00 :: hb5.take 11)).Wf ∧ (holding 64 (0x00 :: hb5.take 11)).faulted = false
        ∧ (holding 64 (0x00 :: hb5.take 11)).hold = none
        ∧ nextWith (exec .parseDrain (holding 64 (0x00 :: hb5.take 11)))
            (fun t => t.hold.isNone && decide (t.size = 11)) = true)
      ∧ (offering.Wf ∧ offering.hold = some ⟨.unknown 2 5 [0x01], 0⟩
        ∧ nextWith (acceptOffered offering) (fun t => t.hold.isNone) = true) := by
  decide +kernel

/-- L1-3: junk of two bytes without the pair `5A A5`. -/
theorem witness_JunkIsResyncedOver :
    let s := holding 64 ([0x5A, 0x5A] ++ encodeFrame 2 5 [0x01] ++ hb6)
    let junk : List Byte := [0x5A, 0x5A]
    s.Wf ∧ s.faulted = false ∧ junk ≠ [] ∧ ([0x01] : List Byte).length ≤ 65535
      ∧ s.content = junk ++ encodeFrame 2 5 [0x01] ++ hb6
      ∧ ∀ i, i + 1 < junk.length → ¬(byteAt junk i = 0x5A ∧ byteAt junk (i + 1) = 0xA5) := by
  refine ⟨by decide +kernel, by decide +kernel, by decide, by decide, by decide +kernel, ?_⟩
  intro i hi
  have hi0 : i = 0 := by
    simp only [List.length_cons, List.length_nil] at hi
    omega
  subst hi0
  decide

/-- L1-4 at the split points 0 and 11. -/
theorem witness_PartialFrameWaits :
    let e := Event.unknown 2 5 [0x01]
    e.framed = true ∧ 11 < e.frame.length ∧ (holding 64 (hb5.take 11)).faulted = false
      ∧ (holding 64 (hb5.take 11)).content = e.frame.take 11 ∧ (State.resetAt 64).content = e.frame.take 0 := by
  decide +kernel

/-- Two frames of both kinds. -/
theorem witness_BufferedFramesAreAllDelivered :
    let es := [Event.unknown 2 5 [0x01], Event.fingerSample 0x0010 0x0123456789ABCDEF []]
    let s := withMoves (holding 64 (hb5 ++ fc0)) (moveOf .parseDrain :: (List.replicate es.length .acceptEvent ++ []))
    s.Wf ∧ s.initialised = true ∧ s.faulted = false ∧ s.hold = none
      ∧ s.moves = moveOf .parseDrain :: (List.replicate es.length .acceptEvent ++ [])
      ∧ (∀ e ∈ es, e.framed = true) ∧ s.content = es.flatMap Event.frame := by
  decide +kernel

/-! ## Invariants of the whole block -/

/-- The least and the greatest capacity. -/
theorem witness_ResetStateMeetsTheInvariants :
    (1 ≤ 1 ∧ 1 ≤ 4294967295) ∧ (1 ≤ 4294967295 ∧ 4294967295 ≤ 4294967295) := by
  decide

/-- A command and an acceptance. -/
theorem witness_StepKeepsTheInvariants :
    ((withMoves three [.command 0x01000001 [4]]).Wf
        ∧ nextWith (step (withMoves three [.command 0x01000001 [4]])) (fun t => t.full) = true)
      ∧ ((withMoves offering [.acceptEvent]).Wf
        ∧ nextWith (step (withMoves offering [.acceptEvent])) (fun t => t.hold.isNone) = true) := by
  decide +kernel

theorem witness_CapacityNeverChanges :
    nextWith (step (withMoves faulted [.resetInput])) (fun t => t.cap == 4) = true := by
  decide +kernel

/-- The stale byte of `twoLeft` at index 1 replaced. -/
theorem witness_StaleBytesAreUnobservable :
    let t := { twoLeft with mem := [(0, 5), (1, 0x77), (3, 4)] }
    twoLeft.RingWf ∧ twoLeft.MemWf ∧ t.MemWf ∧ SameButStale twoLeft t ∧ twoLeft.mem ≠ t.mem := by
  decide +kernel

theorem witness_StepNeverStopsAtAFault : (withMoves three [.command 0x20000000 []]).Wf := by decide +kernel

theorem witness_StepRefusesOnlyEarlyOrMisfitCommands :
    (match step (withMoves unreset [.command 0 []]) with
      | .refused r => r == .beforeFirstReset
      | _ => false) = true
      ∧ (match step (withMoves three [.command 0x01000002 [9]]) with
          | .refused r => r == .dataLength
          | _ => false) = true := by
  decide +kernel

/-- Two events of one kind that differ, and one of the other, all in the port's range. -/
theorem witness_EventsSerialiseAsLaidOutAndDistinctly :
    (Event.unknown 2 5 [0x01]).wf = true ∧ (Event.unknown 2 5 []).wf = true
      ∧ (Event.fingerSample 2 5 []).wf = true := by
  decide +kernel

/-- The one premise, at its boundary and one byte above. -/
theorem witness_FeedPushesTheChunkThenDrains :
    (List.replicate 65535 (0 : Byte)).length ≤ 65535 ∧ ¬(List.replicate 65536 (0 : Byte)).length ≤ 65535 := by
  rw [List.length_replicate, List.length_replicate]
  decide

end Sys2Proof.Tests
end

