-- ==== Sys2Proof/Proofs/Capacity.lean ====
section
/-!
PROOF. No step changes `CAP` (spec/00_scope.md rule R8; a reset keeps it too, spec/70_reset_and_hazards.md rule R250).
-/

namespace Sys2Proof.Machine

/-- Every next state of `r` has the capacity of `s`. -/
def KeepsCap (s : State) (r : Result) : Prop := ∀ t, r = .next t → t.cap = s.cap

theorem keepsCap_next {s t : State} (h : t.cap = s.cap) : KeepsCap s (.next t)
  | _, rfl => h

theorem keepsCap_whenNotFaulted {s : State} {run : Result} (h : KeepsCap s run) : KeepsCap s (whenNotFaulted s run) := by
  intro t ht
  rcases whenNotFaulted_next s t run ht with ⟨-, rfl⟩ | ⟨-, hrun⟩
  · exact State.respond_cap s _ _
  · exact h t hrun

@[simp] theorem consumeWith_cap (s : State) (n : Nat) (data : List Byte) : (consumeWith s n data).cap = s.cap := by
  unfold consumeWith
  split <;> simp

/-- Consuming keeps `CAP`, so a drain does, whether it answers or offers an event. -/
theorem runDrain_keepsCap (emitted : Nat) (s : State) : KeepsCap s (runDrain emitted s) := by
  intro t ht
  obtain ⟨u, hu, ⟨-, -, rfl⟩ | ⟨-, -, -, -, -, -, -, -, -, rfl⟩⟩ :=
    drain_next (fun v => v.cap = s.cap) (fun _ _ hv _ _ => hv) _ emitted s t rfl ht
  · exact hu
  · exact hu

theorem execRbPush_keepsCap (d : List Byte) (s : State) : KeepsCap s (execRbPush d s) := by
  apply keepsCap_whenNotFaulted
  split
  · exact keepsCap_next (by simp)
  · exact nofun

theorem exec_keepsCap (i : Instr) (s : State) : KeepsCap s (exec i s) := by
  cases i with
  | nop => exact keepsCap_whenNotFaulted (keepsCap_next rfl)
  | rbPush d => exact execRbPush_keepsCap d s
  | rbPeek len => exact keepsCap_whenNotFaulted (keepsCap_next (by split <;> simp))
  | rbRead len => exact keepsCap_whenNotFaulted (keepsCap_next (by split <;> simp))
  | rbConsume len => exact keepsCap_whenNotFaulted (keepsCap_next (by split <;> simp))
  | rbSize => exact keepsCap_whenNotFaulted (keepsCap_next rfl)
  | rbFree => exact keepsCap_whenNotFaulted (keepsCap_next rfl)
  | rbCap => exact keepsCap_whenNotFaulted (keepsCap_next rfl)
  | crcCompute d => exact keepsCap_whenNotFaulted (keepsCap_next rfl)
  | crcValidate d => exact keepsCap_whenNotFaulted (keepsCap_next (by split <;> simp))
  | parseDrain => exact keepsCap_whenNotFaulted (runDrain_keepsCap 0 s)
  | buildHeartbeat seq => exact keepsCap_whenNotFaulted (keepsCap_next rfl)
  | regRead r => exact keepsCap_next rfl
  | reset => exact keepsCap_next rfl

theorem issue_keepsCap (w : Word) (d : List Byte) (s : State) : KeepsCap s (issue w d s) := by
  rcases issue_cases w d s with h | h | ⟨i, -, h⟩ <;> rw [h]
  · exact nofun
  · rcases illegalCommand_next (opcOf w) s with h | h <;> rw [h] <;> exact keepsCap_next rfl
  · exact exec_keepsCap i s

theorem acceptOffered_keepsCap (s : State) : KeepsCap s (acceptOffered s) := by
  unfold acceptOffered
  split
  · exact keepsCap_next rfl
  · exact runDrain_keepsCap _ _

theorem takeMove_keepsCap (m : HostMove) (s : State) : KeepsCap s (takeMove m s) := by
  cases m with
  | command w d => exact issue_keepsCap w d { s with abandoned := false }
  | acceptEvent => exact acceptOffered_keepsCap s
  | resetInput => exact keepsCap_next rfl

theorem takeMoveBeforeReset_keepsCap (m : HostMove) (s : State) : KeepsCap s (takeMoveBeforeReset m s) := by
  cases m with
  | command w d => exact nofun
  | acceptEvent => exact keepsCap_next rfl
  | resetInput => exact keepsCap_next rfl

theorem step_keepsCap (s : State) : KeepsCap s (step s) := by
  rcases step_cases s with h | ⟨-, m, rest, -, h⟩ | ⟨-, m, rest, -, h⟩ <;> rw [h]
  · exact keepsCap_next rfl
  · exact takeMoveBeforeReset_keepsCap m { s with moves := rest }
  · exact takeMove_keepsCap m { s with moves := rest }

/-- Settles O55: each move the block can take keeps `CAP`, the reset input and RESET included. -/
theorem capacityNeverChanges : Obligations.CapacityNeverChanges :=
  step_keepsCap

end Sys2Proof.Machine
end

