-- ==== Sys2Proof/Proofs/ExecEnds.lean ====
section
/-!
PROOF. How an instruction or an illegal word can end, said once for all of them.
-/

namespace Sys2Proof.Machine

/-- The ways an instruction, or an illegal word, can end from `s` (spec/60_exceptions.md rules R220 and R223,
spec/40_ring_buffer.md rules R100 and R108, spec/42_frame_parser.md rule R150, spec/44_control.md rule R203). -/
inductive ExecEnds (s : State) : Result → Prop
  | respond (st : Status) (d : List Byte) : ExecEnds s (.next (s.respond st d))
  | raise (c : Cause) : ExecEnds s (.next (s.raise c))
  | consume (n : Nat) (d : List Byte) (hn : n ≤ s.size) (hz : ¬(n = 0 ∧ s.full = true)) :
      ExecEnds s (.next ((s.consume n).respond .ok d))
  | push (d : List Byte) :
      ExecEnds s (if s.canPush d then .next ((s.push d).respond .ok []) else .fault .storageIndex)
  | drain (hf : s.faulted = false) : ExecEnds s (runDrain 0 s)
  | reset : ExecEnds s (.next (s.applyReset.respond .ok []))

theorem whenNotFaulted_ends {s : State} {run : Result} (h : s.faulted = false → ExecEnds s run) :
    ExecEnds s (whenNotFaulted s run) := by
  cases hf : s.faulted
  · rw [whenNotFaulted_run s run hf]
    exact h hf
  · rw [whenNotFaulted_faulted s run hf]
    exact .respond _ _

/-- What RB_READ and RB_CONSUME share (R107). -/
theorem consumeWith_ends (s : State) (n : Nat) (d : List Byte) (hn : n ≤ s.size) :
    ExecEnds s (.next (consumeWith s n d)) := by
  unfold consumeWith
  split
  · exact .raise _
  · exact .consume n d hn ‹_›

theorem execRbPeek_ends (len : BitVec 16) (s : State) : ExecEnds s (execRbPeek len s) := by
  refine whenNotFaulted_ends fun _ => ?_
  simp only
  split
  · exact .respond _ _
  · exact .respond _ _

theorem execRbRead_ends (len : BitVec 16) (s : State) : ExecEnds s (execRbRead len s) := by
  refine whenNotFaulted_ends fun _ => ?_
  simp only
  split
  · exact .respond _ _
  · exact consumeWith_ends s _ _ (by omega)

theorem execRbConsume_ends (len : BitVec 16) (s : State) : ExecEnds s (execRbConsume len s) := by
  refine whenNotFaulted_ends fun _ => ?_
  simp only
  split
  · exact .raise _
  · exact consumeWith_ends s _ _ (by omega)

theorem execCrcValidate_ends (d : List Byte) (s : State) : ExecEnds s (execCrcValidate d s) := by
  refine whenNotFaulted_ends fun _ => ?_
  split
  · exact .respond _ _
  · exact .respond _ _

theorem exec_ends (i : Instr) (s : State) : ExecEnds s (exec i s) := by
  cases i with
  | nop => exact whenNotFaulted_ends fun _ => .respond _ _
  | rbPush d => exact whenNotFaulted_ends fun _ => .push d
  | rbPeek len => exact execRbPeek_ends len s
  | rbRead len => exact execRbRead_ends len s
  | rbConsume len => exact execRbConsume_ends len s
  | rbSize => exact whenNotFaulted_ends fun _ => .respond _ _
  | rbFree => exact whenNotFaulted_ends fun _ => .respond _ _
  | rbCap => exact whenNotFaulted_ends fun _ => .respond _ _
  | crcCompute d => exact whenNotFaulted_ends fun _ => .respond _ _
  | crcValidate d => exact execCrcValidate_ends d s
  | parseDrain => exact whenNotFaulted_ends .drain
  | buildHeartbeat seq => exact whenNotFaulted_ends fun _ => .respond _ _
  | regRead r => exact .respond _ _
  | reset => exact .reset

theorem illegalCommand_ends (opc : BitVec 8) (s : State) : ExecEnds s (illegalCommand opc s) := by
  rcases illegalCommand_next opc s with h | h <;> rw [h]
  · exact .respond _ _
  · exact .raise _

/-- A command at the port is refused, or ends as an instruction does. -/
theorem issue_ends (w : Word) (d : List Byte) (s : State) :
    issue w d s = .refused .dataLength ∨ ExecEnds s (issue w d s) := by
  rcases issue_cases w d s with h | h | ⟨i, -, h⟩
  · exact .inl h
  · exact .inr (h ▸ illegalCommand_ends (opcOf w) s)
  · exact .inr (h ▸ exec_ends i s)

end Sys2Proof.Machine
end

