-- ==== Sys2Proof/Proofs/Invariant.lean ====
section
/-!
PROOF. The invariants of the whole block (spec/10_state.md rule R25 and the ranges around it): every step keeps them, no step of
such a state stops at one of the model's own faults, and what they say of SIZE and FREE.
-/

namespace Sys2Proof.Machine

/-! ## Every step keeps the invariants -/

/-- With nothing on offer, the invariant is the ranges of the registers and the storage. -/
theorem State.Wf.of_hold_none {s : State} (hc : s.CapWf) (hr : s.RingWf) (hm : s.MemWf) (hst : s.StatusWf)
    (hh : s.hold = none) : s.Wf :=
  ⟨hc, hr, hm, hst, by simp [State.HoldWf, hh]⟩

/-- A reset state of a block whose capacity is in range (R252). -/
theorem State.Wf.of_reset {s : State} (hc : s.CapWf) (hm : s.mem = []) (hh : s.head = 0) (ht : s.tail = 0)
    (hf : s.full = false) (hst : s.status = 0) (hn : s.hold = none) : s.Wf := by
  have hpos : 0 < s.cap := hc.1
  refine .of_hold_none hc ⟨?_, ?_, ?_⟩ ?_ (.inl hst) hn
  · simpa [hh] using hpos
  · simpa [ht] using hpos
  · simp [hf]
  · simp [State.MemWf, hm, Memory.wf, Memory.wfFrom, Memory.within]

/-- A legal STATUS without FAULT is 0 (R27). -/
theorem State.status_eq_zero {s : State} (hst : s.StatusWf) (hf : s.faulted = false) : s.status = 0 := by
  rcases hst with h | h | h | h
  · exact h
  all_goals simp [State.faulted, h, statusOf] at hf

/-- What holds while a drain with `m` events behind it runs: nothing is on offer, no fault is recorded, and each of the events
has taken at least 11 bytes of what the buffer held (spec/42_frame_parser.md rule R161). -/
structure DrainRuns (m : Nat) (s : State) : Prop where
  cap : s.CapWf
  ring : s.RingWf
  mem : s.MemWf
  status : s.status = 0
  hold : s.hold = none
  abandoned : s.abandoned = false
  size : minBuf * m + s.size ≤ s.cap

theorem DrainRuns.wf {m : Nat} {s : State} (h : DrainRuns m s) : s.Wf :=
  .of_hold_none h.cap h.ring h.mem (.inl h.status) h.hold

/-- Consuming buffered bytes keeps the drain running. -/
theorem DrainRuns.consume {m : Nat} (s : State) (n : Nat) (h : DrainRuns m s) (h1 : 1 ≤ n) (hn : n ≤ s.size) :
    DrainRuns m (s.consume n) where
  cap := h.cap
  ring := s.consume_ringWf n h.ring
  mem := h.mem
  status := h.status
  hold := h.hold
  abandoned := h.abandoned
  size := by
    have := h.size
    rw [s.size_consume n h.ring hn (by omega), State.consume_cap]
    omega

/-- Emitting an event after a frame of at least 11 bytes is consumed. -/
theorem DrainRuns.wf_emit {m n : Nat} {s : State} {e : Event} (h : DrainRuns m s) (h11 : minBuf ≤ n) (hn : n ≤ s.size)
    (he : e.wf = true) : ({ s.consume n with hold := some { event := e, emitted := m } } : State).Wf := by
  have hpos : 0 < minBuf := by decide
  have hsize := s.size_consume n h.ring hn (by omega)
  refine ⟨h.cap, s.consume_ringWf n h.ring, h.mem, .inl h.status, ?_⟩
  rintro _ ⟨⟩
  refine ⟨he, h.status, h.abandoned, ?_⟩
  change minBuf * (m + 1) + (s.consume n).size ≤ s.cap
  have := h.size
  rw [hsize, Nat.mul_succ]
  omega

theorem runDrain_wf {m : Nat} {s t : State} (h : DrainRuns m s) (ht : runDrain m s = .next t) : t.Wf := by
  obtain ⟨u, hu, ⟨-, -, rfl⟩ | ⟨v, e, n, hv, -, h11, hn, rfl, he, rfl⟩⟩ :=
    drain_next (DrainRuns m) DrainRuns.consume _ m s t h ht
  · exact hu.wf
  · exact hv.wf_emit h11 hn he

/-- An instruction that runs with nothing on offer and nothing abandoned keeps the invariant. -/
theorem ExecEnds.wf {s t : State} {r : Result} (h : ExecEnds s r) (hw : s.Wf) (hn : s.hold = none)
    (ha : s.abandoned = false) (ht : r = .next t) : t.Wf := by
  obtain ⟨hc, hr, hm, hst, -⟩ := hw
  cases h with
  | respond st d =>
    cases ht
    exact .of_hold_none hc hr hm hst hn
  | raise c =>
    cases ht
    exact .of_hold_none hc hr hm (statusAfterFault_wf s c hst) hn
  | consume n d =>
    cases ht
    exact .of_hold_none hc (s.consume_ringWf n hr) hm hst hn
  | push d =>
    obtain ⟨hr', hm'⟩ := s.push_wf d hr hm
    split at ht
    · cases ht
      refine .of_hold_none ?_ hr' hm' ?_ ?_
      · simpa [State.CapWf] using hc
      · simpa [State.StatusWf] using hst
      · simpa using hn
    · cases ht
  | drain hf =>
    have hsize := s.size_le_cap hr
    exact runDrain_wf ⟨hc, hr, hm, s.status_eq_zero hst hf, hn, ha, by omega⟩ ht
  | reset =>
    cases ht
    exact .of_reset hc rfl rfl rfl rfl rfl rfl

theorem issue_wf {w : Word} {d : List Byte} {s t : State} (hw : s.Wf) (hn : s.hold = none) (ha : s.abandoned = false)
    (ht : issue w d s = .next t) : t.Wf := by
  rcases issue_ends w d s with h | h
  · rw [h] at ht
    cases ht
  · exact h.wf hw hn ha ht

/-- The state in which an accepted drain goes on. -/
theorem drainRuns_accepted {s : State} {h : Hold} (hw : s.Wf) (hh : s.hold = some h) :
    DrainRuns (h.emitted + 1) { s with hold := none, events := s.events ++ [h.event] } := by
  obtain ⟨hc, hr, hm, -, hhold⟩ := hw
  obtain ⟨-, hst, ha, hsize⟩ := hhold h hh
  exact ⟨hc, hr, hm, hst, rfl, ha, hsize⟩

theorem acceptOffered_wf {s t : State} (hw : s.Wf) (ht : acceptOffered s = .next t) : t.Wf := by
  unfold acceptOffered at ht
  split at ht
  · cases ht
    exact hw
  · exact runDrain_wf (drainRuns_accepted hw ‹_›) ht

theorem assertReset_wf {s : State} (hc : s.CapWf) : (assertReset s).Wf :=
  .of_reset hc rfl rfl rfl rfl rfl rfl

/-- A move keeps the invariant; a command is taken only with nothing on offer. -/
theorem takeMove_wf {m : HostMove} {s t : State} (hw : s.Wf) (hn : ∀ w d, m = .command w d → s.hold = none)
    (ht : takeMove m s = .next t) : t.Wf := by
  cases m with
  | command w d =>
    have hhold := hn w d rfl
    obtain ⟨hc, hr, hm, hst, -⟩ := hw
    exact issue_wf (s := { s with abandoned := false }) (.of_hold_none hc hr hm hst hhold) hhold rfl ht
  | acceptEvent => exact acceptOffered_wf hw ht
  | resetInput =>
    cases ht
    exact assertReset_wf hw.1

theorem takeMoveBeforeReset_wf {m : HostMove} {s t : State} (hw : s.Wf) (ht : takeMoveBeforeReset m s = .next t) :
    t.Wf := by
  cases m with
  | command w d => cases ht
  | acceptEvent =>
    cases ht
    exact hw
  | resetInput =>
    cases ht
    exact assertReset_wf hw.1

/-- Settles O54, by how each move can end: each effect of an instruction keeps the ranges, and a drain that emits has consumed
at least 11 bytes for the event it puts on offer. -/
theorem stepKeepsTheInvariants : Obligations.StepKeepsTheInvariants := by
  intro s t hw ht
  rcases step_cases s with h | ⟨-, m, rest, -, h⟩ | ⟨-, m, rest, hm, h⟩ <;> rw [h] at ht
  · cases ht
    exact hw
  · exact takeMoveBeforeReset_wf (s := { s with moves := rest }) hw ht
  · refine takeMove_wf (s := { s with moves := rest }) hw ?_ ht
    rintro w d rfl
    exact (nextMove_command s w d rest hm).1

/-! ## The model's own faults -/

/-- A drain has fuel enough wherever the indices are in range (R161). -/
theorem runDrain_ne_fault (m : Nat) (s : State) (f : Fault) (hr : s.RingWf) : runDrain m s ≠ .fault f := by
  obtain ⟨t, ht⟩ := drain_ends (s.size + 1) m s hr (by omega)
  simp [runDrain, ht]

theorem ExecEnds.ne_fault {s : State} {r : Result} (h : ExecEnds s r) (hr : s.RingWf) (f : Fault) : r ≠ .fault f := by
  cases h with
  | respond | raise | consume | reset => exact nofun
  | push d => simp [State.canPush, hr.1]
  | drain => exact runDrain_ne_fault 0 s f hr

theorem issue_ne_fault (w : Word) (d : List Byte) (s : State) (f : Fault) (hr : s.RingWf) : issue w d s ≠ .fault f := by
  rcases issue_ends w d s with h | h
  · rw [h]
    exact nofun
  · exact h.ne_fault hr f

theorem acceptOffered_ne_fault (s : State) (f : Fault) (hr : s.RingWf) : acceptOffered s ≠ .fault f := by
  unfold acceptOffered
  split
  · exact nofun
  · exact runDrain_ne_fault _ _ f hr

theorem takeMove_ne_fault (m : HostMove) (s : State) (f : Fault) (hr : s.RingWf) : takeMove m s ≠ .fault f := by
  cases m with
  | command w d => exact issue_ne_fault w d { s with abandoned := false } f hr
  | acceptEvent => exact acceptOffered_ne_fault s f hr
  | resetInput => exact nofun

/-- Settles O57: `HEAD` is an index of the storage, and a drain has fuel for every byte buffered. -/
theorem stepNeverStopsAtAFault : Obligations.StepNeverStopsAtAFault := by
  rintro s f ⟨-, hr, -⟩
  rcases step_cases s with h | ⟨-, m, rest, -, h⟩ | ⟨-, m, rest, -, h⟩ <;> rw [h]
  · exact nofun
  · cases m <;> exact nofun
  · exact takeMove_ne_fault m { s with moves := rest } f hr

/-! ## SIZE and FREE -/

/-- Settles O28: SIZE reaches `CAP` only through `FULL` (R25). -/
theorem sizeAndFreeInvariants : Obligations.SizeAndFreeInvariants := by
  rintro s ⟨-, hr, -⟩
  have hle := s.size_le_cap hr
  have hlt := s.size_lt_cap hr
  refine ⟨hle, ?_, hr.2.2, ⟨fun h => ?_, s.size_full⟩, fun hf => ?_⟩
  · rw [State.free]
    omega
  · by_contra hf
    have := hlt (by simpa using hf)
    omega
  · have := hlt hf
    omega

end Sys2Proof.Machine
end

