-- ==== Sys2Proof/Proofs/StaleBytes.lean ====
section
/-!
PROOF. No step shows a stale byte (spec/10_state.md rule R33): from two states that differ in stale bytes only, every effect of
the block ends the same way, in states that again differ in stale bytes only.
-/

namespace Sys2Proof.Machine

/-- `s` with another storage. -/
def State.withMem (s : State) (m : List Host.Cell) : State := { s with mem := m }

section
variable {s t : State} (h : SameButStale s t)
include h

/-! ## What the two states share -/

theorem SameButStale.eq_withMem : t = s.withMem t.mem := h.1

/-- What does not look at the storage is the same in both. -/
theorem SameButStale.eq_of_withMem {α : Type} (f : State → α) (hf : ∀ m, f (s.withMem m) = f s) : f t = f s := by
  rw [h.eq_withMem]
  exact hf t.mem

theorem SameButStale.cap : t.cap = s.cap := h.eq_of_withMem State.cap fun _ => rfl
theorem SameButStale.full : t.full = s.full := h.eq_of_withMem State.full fun _ => rfl
theorem SameButStale.hold : t.hold = s.hold := h.eq_of_withMem State.hold fun _ => rfl
theorem SameButStale.initialised : t.initialised = s.initialised := h.eq_of_withMem State.initialised fun _ => rfl
theorem SameButStale.moves : t.moves = s.moves := h.eq_of_withMem State.moves fun _ => rfl
theorem SameButStale.nextMove : t.nextMove = s.nextMove := h.eq_of_withMem State.nextMove fun _ => rfl
theorem SameButStale.size : t.size = s.size := h.eq_of_withMem State.size fun _ => rfl
theorem SameButStale.free : t.free = s.free := h.eq_of_withMem State.free fun _ => rfl
theorem SameButStale.faulted : t.faulted = s.faulted := h.eq_of_withMem State.faulted fun _ => rfl
theorem SameButStale.ringWf (hr : s.RingWf) : t.RingWf := h.eq_of_withMem State.RingWf (fun _ => rfl) ▸ hr

theorem SameButStale.readReg (r : Reg) : t.readReg r = s.readReg r :=
  h.eq_of_withMem (State.readReg · r) fun _ => by cases r <;> rfl

theorem SameButStale.peek (n : Nat) : t.peek n = s.peek n := by
  rw [State.peek, h.2, State.peek]

/-! ## Effects on the state -/

/-- An effect that does the same to every storage keeps the relation, if it leaves the same unread bytes. -/
theorem SameButStale.map (f : State → State) (hf : ∀ m, f (s.withMem m) = (f s).withMem (f (s.withMem m)).mem)
    (hc : (f t).content = (f s).content) : SameButStale (f s) (f t) := by
  refine ⟨?_, hc⟩
  have := hf t.mem
  rwa [← h.eq_withMem] at this

theorem SameButStale.respond (st : Status) {d d' : List Byte} (hd : d' = d) :
    SameButStale (s.respond st d) (t.respond st d') := by
  rw [hd]
  exact h.map (State.respond · st d) (fun _ => rfl) h.2

theorem SameButStale.respondNat {v v' : Nat} (hv : v' = v) : SameButStale (s.respondNat v) (t.respondNat v') :=
  h.respond .ok (by rw [hv])

theorem SameButStale.raise (c : Cause) : SameButStale (s.raise c) (t.raise c) :=
  h.map (State.raise · c) (fun _ => rfl) h.2

theorem SameButStale.consume (hr : s.RingWf) (n : Nat) (hn : n ≤ s.size) (hz : ¬(n = 0 ∧ s.full = true)) :
    SameButStale (s.consume n) (t.consume n) := by
  refine h.map (State.consume · n) (fun _ => rfl) ?_
  rw [t.content_consume n (h.ringWf hr) (h.size ▸ hn) (h.full ▸ hz), s.content_consume n hr hn hz, h.2]

theorem SameButStale.pushByte (hr : s.RingWf) (hs : Memory.wf s.mem = true) (ht : Memory.wf t.mem = true) (b : Byte) :
    SameButStale (s.pushByte b) (t.pushByte b) := by
  refine h.map (State.pushByte · b) (fun _ => rfl) ?_
  rw [t.content_pushByte b (h.ringWf hr) ht, s.content_pushByte b hr hs, h.2, h.full]

omit h in
theorem SameButStale.push (d : List Byte) {s t : State} (h : SameButStale s t) (hr : s.RingWf)
    (hs : Memory.wf s.mem = true) (ht : Memory.wf t.mem = true) : SameButStale (s.push d) (t.push d) := by
  induction d generalizing s t with
  | nil => exact h
  | cons b d ih =>
    exact ih (h.pushByte hr hs ht b) (s.pushByte_ringWf b hr) (Memory.write_wf _ _ _ hs) (Memory.write_wf _ _ _ ht)

/-- Both resets empty the storage, so they leave one state (log entry 2). -/
theorem SameButStale.assertReset : SameButStale (assertReset s) (assertReset t) :=
  h.map Machine.assertReset (fun _ => rfl) (congrArg State.content (h.eq_of_withMem Machine.assertReset fun _ => rfl))

theorem SameButStale.applyReset : SameButStale s.applyReset t.applyReset :=
  h.map State.applyReset (fun _ => rfl) (congrArg State.content (h.eq_of_withMem State.applyReset fun _ => rfl))

/-! The fields that no effect on the ring writes. -/

theorem SameButStale.setMoves (ms : List HostMove) : SameButStale { s with moves := ms } { t with moves := ms } :=
  h.map ({ · with moves := ms }) (fun _ => rfl) h.2

theorem SameButStale.setHold (o : Option Hold) : SameButStale { s with hold := o } { t with hold := o } :=
  h.map ({ · with hold := o }) (fun _ => rfl) h.2

theorem SameButStale.clearAbandoned : SameButStale { s with abandoned := false } { t with abandoned := false } :=
  h.map ({ · with abandoned := false }) (fun _ => rfl) h.2

theorem SameButStale.deliver (e : Event) :
    SameButStale { s with hold := none, events := s.events ++ [e] } { t with hold := none, events := t.events ++ [e] } :=
  h.map (fun u => { u with hold := none, events := u.events ++ [e] }) (fun _ => rfl) h.2

/-! ## Commands -/

/-- Step 1 of R223 looks at STATUS only. -/
theorem SameButStale.whenNotFaulted {r r' : Result} (hrun : sameOutcome r r') :
    sameOutcome (whenNotFaulted s r) (whenNotFaulted t r') := by
  cases hf : s.faulted
  · rw [whenNotFaulted_run s r hf, whenNotFaulted_run t r' (h.faulted.trans hf)]
    exact hrun
  · rw [whenNotFaulted_faulted s r hf, whenNotFaulted_faulted t r' (h.faulted.trans hf)]
    exact h.respond _ rfl

theorem SameButStale.illegalCommand (opc : BitVec 8) : sameOutcome (illegalCommand opc s) (illegalCommand opc t) := by
  unfold Machine.illegalCommand
  split
  · exact h.raise _
  · exact h.whenNotFaulted (h.raise _)

/-- RB_PUSH writes at `HEAD`, so it makes the same bytes unread in both. -/
theorem SameButStale.execRbPush (hr : s.RingWf) (hs : Memory.wf s.mem = true) (ht : Memory.wf t.mem = true)
    (d : List Byte) : sameOutcome (execRbPush d s) (execRbPush d t) := by
  refine h.whenNotFaulted ?_
  rw [h.eq_of_withMem (State.canPush · d) fun _ => rfl]
  split
  · exact (h.push d hr hs ht).respond _ rfl
  · rfl

theorem SameButStale.execRbPeek (len : BitVec 16) : sameOutcome (execRbPeek len s) (execRbPeek len t) := by
  refine h.whenNotFaulted ?_
  simp only [h.size]
  split
  · exact h.respond _ rfl
  · exact h.respond _ (h.peek _)

theorem SameButStale.consumeWith (hr : s.RingWf) (n : Nat) (hn : n ≤ s.size) {d d' : List Byte} (hd : d' = d) :
    SameButStale (consumeWith s n d) (consumeWith t n d') := by
  unfold Machine.consumeWith
  rw [h.full]
  split
  · exact h.raise _
  · exact (h.consume hr n hn ‹_›).respond _ hd

theorem SameButStale.execRbRead (hr : s.RingWf) (len : BitVec 16) :
    sameOutcome (execRbRead len s) (execRbRead len t) := by
  refine h.whenNotFaulted ?_
  simp only [h.size]
  split
  · exact h.respond _ rfl
  · exact h.consumeWith hr _ (by omega) (h.peek _)

theorem SameButStale.execRbConsume (hr : s.RingWf) (len : BitVec 16) :
    sameOutcome (execRbConsume len s) (execRbConsume len t) := by
  refine h.whenNotFaulted ?_
  simp only [h.size]
  split
  · exact h.raise _
  · exact h.consumeWith hr _ (by omega) rfl

theorem SameButStale.execCrcValidate (d : List Byte) : sameOutcome (execCrcValidate d s) (execCrcValidate d t) := by
  refine h.whenNotFaulted ?_
  split
  · exact h.respond _ rfl
  · exact h.respond _ rfl

end

/-! ## The drain -/

/-- What an iteration ends in, with another storage. -/
def Iteration.withMem (m : List Host.Cell) : Iteration → Iteration
  | .stop ph => .stop ph
  | .discard why s => .discard why (s.withMem m)
  | .emit e s => .emit e (s.withMem m)

theorem SameButStale.withMem_consume {s t : State} (h : SameButStale s t) (n : Nat) :
    (s.consume n).withMem t.mem = t.consume n :=
  (congrArg (State.consume · n) h.eq_withMem).symm

/-- An iteration reads unread bytes only: whatever it does, it does to both. -/
theorem SameButStale.iterate {s t : State} (h : SameButStale s t) : iterate t = (iterate s).withMem t.mem := by
  simp only [Machine.iterate, h.size, h.peek, ← h.withMem_consume]
  split
  · rfl
  · split
    · rfl
    · split
      · rfl
      · split
        · split <;> rfl
        · rfl

theorem SameButStale.drain (fuel m : Nat) {s t : State} (h : SameButStale s t) (hr : s.RingWf) :
    sameOutcome (drain fuel m s) (drain fuel m t) := by
  induction fuel generalizing s t with
  | zero => rfl
  | succ fuel ih =>
    rw [Machine.drain, Machine.drain, h.iterate]
    cases hi : Machine.iterate s with
    | stop ph => exact h.respondNat rfl
    | discard why u =>
      obtain ⟨n, h1, hn, rfl⟩ := iterate_discard s u why hi
      simp only [Iteration.withMem, h.withMem_consume]
      exact ih (h.consume hr n hn (by omega)) (s.consume_ringWf n hr)
    | emit e u =>
      obtain ⟨n, h11, hn, rfl, -⟩ := iterate_emit s u e hi
      have hpos : 0 < minBuf := by decide
      simp only [Iteration.withMem, h.withMem_consume]
      exact (h.consume hr n hn (by omega)).setHold (some ⟨e, m⟩)

theorem SameButStale.runDrain (m : Nat) {s t : State} (h : SameButStale s t) (hr : s.RingWf) :
    sameOutcome (runDrain m s) (runDrain m t) := by
  rw [Machine.runDrain, Machine.runDrain, h.size]
  exact h.drain _ m hr

/-! ## One step -/

section
variable {s t : State} (h : SameButStale s t) (hr : s.RingWf)
include h hr

theorem SameButStale.acceptOffered : sameOutcome (acceptOffered s) (acceptOffered t) := by
  unfold Machine.acceptOffered
  rw [h.hold]
  split
  · exact h
  · exact (h.deliver _).runDrain _ hr

variable (hs : Memory.wf s.mem = true) (ht : Memory.wf t.mem = true)
include hs ht

theorem SameButStale.exec (i : Instr) : sameOutcome (exec i s) (exec i t) := by
  cases i with
  | nop => exact h.whenNotFaulted (h.respond _ rfl)
  | rbPush d => exact h.execRbPush hr hs ht d
  | rbPeek len => exact h.execRbPeek len
  | rbRead len => exact h.execRbRead hr len
  | rbConsume len => exact h.execRbConsume hr len
  | rbSize => exact h.whenNotFaulted (h.respondNat h.size)
  | rbFree => exact h.whenNotFaulted (h.respondNat h.free)
  | rbCap => exact h.whenNotFaulted (h.respondNat h.cap)
  | crcCompute d => exact h.whenNotFaulted (h.respond _ rfl)
  | crcValidate d => exact h.execCrcValidate d
  | parseDrain => exact h.whenNotFaulted (h.runDrain 0 hr)
  | buildHeartbeat seq => exact h.whenNotFaulted (h.respond _ rfl)
  | regRead r => exact h.respond _ (by rw [h.readReg r])
  | reset => exact h.applyReset.respond _ rfl

theorem SameButStale.issue (w : Word) (d : List Byte) : sameOutcome (issue w d s) (issue w d t) := by
  unfold Machine.issue
  split
  · exact h.exec hr hs ht _
  · rfl
  · rfl
  all_goals exact h.illegalCommand _

theorem SameButStale.takeMove (m : HostMove) : sameOutcome (takeMove m s) (takeMove m t) := by
  cases m with
  | command w d => exact h.clearAbandoned.issue hr hs ht w d
  | acceptEvent => exact h.acceptOffered hr
  | resetInput => exact h.assertReset

omit hr hs ht in
theorem SameButStale.takeMoveBeforeReset (m : HostMove) :
    sameOutcome (takeMoveBeforeReset m s) (takeMoveBeforeReset m t) := by
  cases m with
  | command w d => rfl
  | acceptEvent => exact h
  | resetInput => exact h.assertReset

theorem SameButStale.step : sameOutcome (step s) (step t) := by
  rw [Machine.step, Machine.step, h.initialised]
  split
  · unfold stepAfterReset
    rw [h.nextMove]
    split
    · exact h
    · rename_i m rest _
      exact (h.setMoves rest).takeMove hr hs ht m
  · unfold stepBeforeReset
    rw [h.moves]
    split
    · exact h
    · exact (h.setMoves _).takeMoveBeforeReset _

end

/-- Settles O56: both states take the same move, and each of its effects keeps the relation. -/
theorem staleBytesAreUnobservable : Obligations.StaleBytesAreUnobservable :=
  fun _ _ hr hs ht h => h.step hr hs.1 ht.1

end Sys2Proof.Machine
end

