-- ==== Sys2Proof/Proofs/ResetWord.lean ====
section
/-!
PROOF. Which word decodes to RESET (spec/30_encoding.md rules R62 and R63).
-/

namespace Sys2Proof

/-- A word is its three fields (spec/30_encoding.md rule R60). -/
theorem wordOf_fields (w : Word) : wordOf (opcOf w) (subOf w) (immOf w) = w := by
  have hhigh : opcOf w ++ subOf w = w.extractLsb' 16 16 := BitVec.extractLsb'_append_extractLsb'_eq_extractLsb' rfl
  rw [wordOf, hhigh]
  exact halves_append 16 w

theorem withSubZero_ok {w : Word} {r : Except DecodeError Instr} {i : Instr} :
    withSubZero w r = .ok i ↔ subOf w = 0 ∧ r = .ok i := by
  by_cases h : subOf w = 0
  · rw [withSubZero, if_pos h]
    exact (and_iff_right h).symm
  · rw [withSubZero, if_neg h]
    exact ⟨nofun, fun hr => absurd hr.1 h⟩

theorem withImmZero_ok {w : Word} {r : Except DecodeError Instr} {i : Instr} :
    withImmZero w r = .ok i ↔ immOf w = 0 ∧ r = .ok i := by
  by_cases h : immOf w = 0
  · rw [withImmZero, if_pos h]
    exact (and_iff_right h).symm
  · rw [withImmZero, if_neg h]
    exact ⟨nofun, fun hr => absurd hr.1 h⟩

/-- Only 0xF0000000 decodes to RESET (R62, R63): no other row of the opcode map names it. -/
theorem decodeWord_reset {w : Word} {d : List Byte} (h : decodeWord w d = .ok .reset) : w = 0xF0000000 := by
  unfold decodeWord at h
  split at h
  case h_13 =>
    obtain ⟨-, h⟩ := withImmZero_ok.mp h
    split at h <;> cases h
  case h_14 hopc =>
    obtain ⟨hsub, h⟩ := withSubZero_ok.mp h
    obtain ⟨himm, -⟩ := withImmZero_ok.mp h
    have hopc : opcOf w = 0xF0 := BitVec.eq_of_toNat_eq hopc
    rw [← wordOf_fields w, hopc, hsub, himm]
    rfl
  all_goals simp [withSubZero_ok, withImmZero_ok] at h

theorem decodeCommand_reset {w : Word} {d : List Byte} (h : decodeCommand w d = .ok .reset) : w = 0xF0000000 := by
  unfold decodeCommand at h
  split at h
  · exact decodeWord_reset h
  · cases h

end Sys2Proof
end

