-- ==== Sys2Proof/Proofs/FaultedBlock.lean ====
section
/-!
PROOF. What a faulted block does (spec/10_state.md rule R28, spec/60_exceptions.md rules R223 and R227), and REG_READ, which it
carries out all the same (spec/44_control.md rule R201).
-/

namespace Sys2Proof.Machine

/-! ## Commands of a faulted block -/

/-- Every instruction but REG_READ and RESET passes step 1 of R223. -/
theorem exec_eq_whenNotFaulted (i : Instr) (s : State) (hi : runsWhileFaulted i = false) :
    ∃ run, exec i s = whenNotFaulted s run := by
  cases i with
  | regRead r => cases hi
  | reset => cases hi
  | nop | rbPush | rbPeek | rbRead | rbConsume | rbSize | rbFree | rbCap | crcCompute | crcValidate | parseDrain
  | buildHeartbeat => exact ⟨_, rfl⟩

/-- Settles O13: step 1 of R223 answers for every instruction that passes it. -/
theorem faultedBlockRunsOnlyRegReadAndReset : Obligations.FaultedBlockRunsOnlyRegReadAndReset := by
  intro i s hi hf
  obtain ⟨run, h⟩ := exec_eq_whenNotFaulted i s hi
  rw [h, whenNotFaulted_faulted s run hf]
  rfl

/-- Settles O37, register by register: SIZE is the number of unread bytes. -/
theorem regReadReturnsTheRegister : Obligations.RegReadReturnsTheRegister := by
  intro s r
  rw [s.content_length]
  cases r <;> rfl

/-! ## The recorded fault stays -/

/-- Consuming writes no STATUS, so a drain does not. -/
theorem runDrain_status (m : Nat) (s t : State) (h : runDrain m s = .next t) : t.status = s.status := by
  obtain ⟨u, hu, ⟨-, -, rfl⟩ | ⟨-, -, -, -, -, -, -, -, -, rfl⟩⟩ :=
    drain_next (fun v => v.status = s.status) (fun _ _ hv _ _ => hv) _ m s t rfl h
  · exact hu
  · exact hu

theorem acceptOffered_status (s t : State) (h : acceptOffered s = .next t) : t.status = s.status := by
  unfold acceptOffered at h
  split at h
  · cases h
    rfl
  · exact (runDrain_status _ _ t h :)

/-- No instruction but RESET changes the STATUS of a faulted block. -/
theorem exec_faulted_status (i : Instr) (s t : State) (hf : s.faulted = true) (hi : i ≠ .reset)
    (h : exec i s = .next t) : t.status = s.status := by
  cases hrun : runsWhileFaulted i
  · rw [faultedBlockRunsOnlyRegReadAndReset i s hrun hf] at h
    cases h
    rfl
  · cases i with
    | regRead r =>
      cases h
      rfl
    | reset => exact absurd rfl hi
    | _ => cases hrun

theorem issue_faulted_status (w : Word) (d : List Byte) (s t : State) (hf : s.faulted = true) (hw : w ≠ 0xF0000000)
    (h : issue w d s = .next t) : t.status = s.status := by
  rcases issue_cases w d s with hi | hi | ⟨i, hdec, hi⟩ <;> rw [hi] at h
  · cases h
  · rcases illegalCommand_next (opcOf w) s with hc | hc <;> rw [hc] at h <;> cases h
    · rfl
    · exact if_pos hf
  · refine exec_faulted_status i s t hf ?_ h
    rintro rfl
    exact hw (decodeCommand_reset hdec)

/-- A reset input that is the host's first move is the move the block takes, with an event on offer or without. -/
theorem nextMove_resetInput (s : State) (rest : List HostMove) (h : s.moves = .resetInput :: rest) :
    s.nextMove = some (.resetInput, rest) := by
  unfold State.nextMove
  rw [h]
  split <;> rfl

/-- Settles O14, by the move taken: no command but RESET writes the STATUS of a faulted block, and a drain writes none. -/
theorem faultIsStickyUntilReset : Obligations.FaultIsStickyUntilReset := by
  intro s t hf ht hinput hreset
  rcases step_cases s with h | ⟨-, m, rest, hm, h⟩ | ⟨-, m, rest, hm, h⟩ <;> rw [h] at ht
  · cases ht
    rfl
  · cases m with
    | command w d => cases ht
    | acceptEvent =>
      cases ht
      rfl
    | resetInput => exact absurd (nextMove_resetInput s rest hm) (hinput rest)
  · cases m with
    | command w d =>
      refine issue_faulted_status w d { s with moves := rest, abandoned := false } t hf ?_ ht
      rintro rfl
      exact hreset d rest hm
    | acceptEvent => exact acceptOffered_status { s with moves := rest } t ht
    | resetInput => exact absurd hm (hinput rest)

end Sys2Proof.Machine
end

