-- ==== Sys2Proof/Proofs/IssuedCommand.lean ====
section
/-!
PROOF. The move a step takes, and the command that runs as the instruction it decodes to (spec/20_memory.md rule R50).
-/

namespace Sys2Proof.Machine

/-- With nothing on offer the block takes the host's first move, whatever it is (R262). -/
theorem nextMove_of_hold_none {s : State} {m : HostMove} {rest : List HostMove} (hh : s.hold = none)
    (hm : s.moves = m :: rest) : s.nextMove = some (m, rest) := by
  simp [State.nextMove, hh, hm]

/-- After the first reset a step is the move the block takes next. -/
theorem step_of_nextMove {s : State} {m : HostMove} {rest : List HostMove} (hi : s.initialised = true)
    (hm : s.nextMove = some (m, rest)) : step s = takeMove m { s with moves := rest } := by
  simp [step, stepAfterReset, hi, hm]

/-- A command that decodes runs as its instruction. -/
theorem issue_of_decodeCommand {w : Word} {d : List Byte} {i : Instr} (h : decodeCommand w d = .ok i) (s : State) :
    issue w d s = exec i s := by
  simp [issue, h]

/-- Settles O6: with nothing on offer the next move is the command, which decodes. -/
theorem stepRunsTheDecodedInstruction : Obligations.StepRunsTheDecodedInstruction := by
  intro s w d rest i hi hh hm hdec
  rw [step_of_nextMove hi (nextMove_of_hold_none hh hm), takeMove_command]
  exact issue_of_decodeCommand hdec _

end Sys2Proof.Machine
end

