-- ==== Sys2Proof/Proofs/AnswersAndFaults.lean ====
section
/-!
PROOF. The commands that only answer (spec/20_memory.md rule R47), and what a command that answers a fault has changed
(spec/20_memory.md rule R46, spec/60_exceptions.md rule R220).
-/

namespace Sys2Proof.Machine

/-! ## Commands with no side effect -/

/-- The statuses with which the block answers a fault (R221). -/
def Status.ofFault : Status → Bool
  | .illegal => true
  | .overrun => true
  | .unsettled => true
  | .ok => false
  | .insufficient => false
  | .faulted => false

/-- `s` with other responses already given. -/
def State.withResponses (s : State) (given : List Response) : State := { s with responses := given }

/-- From `s`, `run` answers and does nothing else: one response, which is no fault's and does not depend on the responses
already given. -/
def AnswersOnly (run : State → Result) (s : State) : Prop :=
  ∃ st d, st.ofFault = false ∧ ∀ given, run (s.withResponses given) = .next ((s.withResponses given).respond st d)

theorem AnswersOnly.next {run : State → Result} {s : State} (h : AnswersOnly run s) :
    ∃ st d, st.ofFault = false ∧ run s = .next (s.respond st d) := by
  obtain ⟨st, d, hst, hrun⟩ := h
  exact ⟨st, d, hst, hrun s.responses⟩

theorem AnswersOnly.whenNotFaulted {run : State → Result} {s : State} (h : AnswersOnly run s) :
    AnswersOnly (fun u => whenNotFaulted u (run u)) s := by
  cases hf : s.faulted
  · obtain ⟨st, d, hst, hrun⟩ := h
    exact ⟨st, d, hst, fun given => (whenNotFaulted_run (s.withResponses given) _ hf).trans (hrun given)⟩
  · exact ⟨.faulted, [], rfl, fun given => whenNotFaulted_faulted (s.withResponses given) _ hf⟩

/-- RB_PEEK answers by `SIZE` and the unread bytes (R103, R104). -/
theorem execRbPeek_answersOnly (len : BitVec 16) (s : State) : AnswersOnly (execRbPeek len) s := by
  refine AnswersOnly.whenNotFaulted (run := fun u => .next _) ?_
  by_cases hn : s.size < lengthOperand len
  · exact ⟨.insufficient, [], rfl, fun given => congrArg _ (if_pos hn)⟩
  · exact ⟨.ok, s.peek (lengthOperand len), rfl, fun given => congrArg _ (if_neg hn)⟩

/-- CRC_VALIDATE answers by its own data bytes (R135). -/
theorem execCrcValidate_answersOnly (d : List Byte) (s : State) : AnswersOnly (execCrcValidate d) s := by
  refine AnswersOnly.whenNotFaulted (run := fun u => .next _) ?_
  by_cases hn : dataOperand d < 4
  · exact ⟨.insufficient, [], rfl, fun given => congrArg _ (if_pos hn)⟩
  · exact ⟨.ok, _, rfl, fun given => congrArg _ (if_neg hn)⟩

/-- The commands with "no side effect on state" (R47). -/
theorem exec_answersOnly (i : Instr) (s : State) (hi : readsOnly i = true) : AnswersOnly (exec i) s := by
  cases i with
  | rbPeek len => exact execRbPeek_answersOnly len s
  | crcValidate d => exact execCrcValidate_answersOnly d s
  | regRead r => exact ⟨.ok, bytesLE32 (s.readReg r), rfl, fun _ => by cases r <;> rfl⟩
  | rbSize => exact AnswersOnly.whenNotFaulted ⟨.ok, bytesLE32 (BitVec.ofNat 32 s.size), rfl, fun _ => rfl⟩
  | rbFree => exact AnswersOnly.whenNotFaulted ⟨.ok, bytesLE32 (BitVec.ofNat 32 s.free), rfl, fun _ => rfl⟩
  | rbCap => exact AnswersOnly.whenNotFaulted ⟨.ok, bytesLE32 (BitVec.ofNat 32 s.cap), rfl, fun _ => rfl⟩
  | nop | crcCompute | buildHeartbeat =>
    exact AnswersOnly.whenNotFaulted ⟨.ok, _, rfl, fun _ => rfl⟩
  | rbPush | rbRead | rbConsume | parseDrain | reset => cases hi

/-- Settles O38: the answer does not depend on the responses already given, so the second is the first again. -/
theorem readOnlyCommandsChangeNothing : Obligations.ReadOnlyCommandsChangeNothing := by
  intro i s t hi ht
  obtain ⟨st, d, -, hrun⟩ := exec_answersOnly i s hi
  have hnext : exec i s = .next (s.respond st d) := hrun s.responses
  rw [hnext] at ht
  cases ht
  exact ⟨⟨st, d⟩, rfl, hrun _⟩

/-! ## Commands that fault -/

/-- Whatever in `r` answers with a fault's status is `s` with a fault raised. -/
def FaultsByRaising (s : State) (r : Result) : Prop :=
  ∀ t resp, r = .next t → t.responses = s.responses ++ [resp] → resp.status.ofFault = true → ∃ c, t = s.raise c

theorem faultsByRaising_raise (s : State) (c : Cause) : FaultsByRaising s (.next (s.raise c)) := by
  rintro _ resp ⟨⟩ - -
  exact ⟨c, rfl⟩

/-- An answer whose status is no fault's, whatever the command did before it. -/
theorem faultsByRaising_respond {s u : State} {st : Status} {d : List Byte} (hu : u.responses = s.responses)
    (hst : st.ofFault = false) : FaultsByRaising s (.next (u.respond st d)) := by
  rintro _ resp ⟨⟩ hresp hfault
  rw [State.respond_responses, hu] at hresp
  obtain rfl : ⟨st, d⟩ = resp := by simpa using hresp
  cases hst.symm.trans hfault

theorem faultsByRaising_whenNotFaulted {s : State} {run : Result} (h : FaultsByRaising s run) :
    FaultsByRaising s (whenNotFaulted s run) := by
  intro t resp ht
  rcases whenNotFaulted_next s t run ht with ⟨-, rfl⟩ | ⟨-, hrun⟩
  · exact faultsByRaising_respond rfl rfl _ resp rfl
  · exact h t resp hrun

/-- What RB_READ and RB_CONSUME share (R107). -/
theorem consumeWith_faultsByRaising (s : State) (n : Nat) (data : List Byte) :
    FaultsByRaising s (.next (consumeWith s n data)) := by
  unfold consumeWith
  split
  · exact faultsByRaising_raise s _
  · exact faultsByRaising_respond rfl rfl

theorem execRbPush_faultsByRaising (d : List Byte) (s : State) : FaultsByRaising s (execRbPush d s) := by
  apply faultsByRaising_whenNotFaulted
  split
  · exact faultsByRaising_respond (s.push_responses d) rfl
  · exact nofun

theorem execRbRead_faultsByRaising (len : BitVec 16) (s : State) : FaultsByRaising s (execRbRead len s) := by
  apply faultsByRaising_whenNotFaulted
  simp only
  split
  · exact faultsByRaising_respond rfl rfl
  · exact consumeWith_faultsByRaising s _ _

theorem execRbConsume_faultsByRaising (len : BitVec 16) (s : State) : FaultsByRaising s (execRbConsume len s) := by
  apply faultsByRaising_whenNotFaulted
  simp only
  split
  · exact faultsByRaising_raise s _
  · exact consumeWith_faultsByRaising s _ _

/-- A drain answers `OK`, or offers an event and answers nothing (R150, R266). -/
theorem runDrain_faultsByRaising (m : Nat) (s : State) : FaultsByRaising s (runDrain m s) := by
  intro t resp ht
  obtain ⟨u, hu, ⟨-, -, rfl⟩ | ⟨-, -, -, -, -, -, -, -, -, rfl⟩⟩ :=
    drain_next (fun v => v.responses = s.responses) (fun _ _ hv _ _ => hv) _ m s t rfl ht
  · exact faultsByRaising_respond hu rfl _ resp rfl
  · intro hresp
    simp [hu] at hresp

theorem exec_faultsByRaising (i : Instr) (s : State) : FaultsByRaising s (exec i s) := by
  cases hi : readsOnly i
  · cases i with
    | rbPush d => exact execRbPush_faultsByRaising d s
    | rbRead len => exact execRbRead_faultsByRaising len s
    | rbConsume len => exact execRbConsume_faultsByRaising len s
    | parseDrain => exact faultsByRaising_whenNotFaulted (runDrain_faultsByRaising 0 s)
    | reset => exact faultsByRaising_respond rfl rfl
    | nop | rbPeek | rbSize | rbFree | rbCap | crcCompute | crcValidate | buildHeartbeat | regRead => cases hi
  · obtain ⟨st, d, hst, hnext⟩ := (exec_answersOnly i s hi).next
    rw [hnext]
    exact faultsByRaising_respond rfl hst

/-- Settles O16: every answer with a fault's status is a fault raised on the old state. -/
theorem faultingCommandChangesOnlyStatus : Obligations.FaultingCommandChangesOnlyStatus := by
  intro i s t r ht hresp hst
  have hfault : r.status.ofFault = true := by rcases hst with h | h | h <;> rw [h] <;> rfl
  obtain ⟨c, rfl⟩ := exec_faultsByRaising i s t r ht hresp hfault
  obtain rfl : ⟨c.response, []⟩ = r := by simpa using hresp
  exact ⟨rfl, rfl⟩

end Sys2Proof.Machine
end

