-- ==== Sys2Proof/Proofs/FrameEncoding.lean ====
section
/-!
PROOF. The frame an event is sent in, read back field by field (spec/30_encoding.md rules R70 to R73, spec/43_frame_builder.md
rule R190).
-/

namespace Sys2Proof.Machine

/-! ## The frame an event is sent in (spec/30_encoding.md rules R70 to R73) -/

@[simp] theorem encodeFrame_length (type : BitVec 8) (seq : BitVec 16) (payload : List Byte) :
    (encodeFrame type seq payload).length = 7 + payload.length + 4 := by
  simp [encodeFrame, frameBody]
  omega

/-- A sequence with its own CRC as trailer passes `crc_ok` (R133). -/
theorem crcOk_append_crc32 (body : List Byte) : crcOk (body ++ bytesLE32 (crc32 body)) = true := by
  have hread : le32 (body ++ bytesLE32 (crc32 body)) body.length = crc32 body :=
    (le32_append_right body _ 0).trans (le32_bytes _)
  simp [crcOk, hread]

theorem crcOk_encodeFrame (type : BitVec 8) (seq : BitVec 16) (payload : List Byte) :
    crcOk (encodeFrame type seq payload) = true :=
  crcOk_append_crc32 _

theorem byteAt_encodeFrame_type (type : BitVec 8) (seq : BitVec 16) (payload : List Byte) :
    byteAt (encodeFrame type seq payload) 6 = type := rfl

theorem le16_encodeFrame_seq (type : BitVec 8) (seq : BitVec 16) (payload : List Byte) :
    le16 (encodeFrame type seq payload) 4 = seq :=
  halves_append 8 seq

theorem le16_encodeFrame_size (type : BitVec 8) (seq : BitVec 16) (payload : List Byte) :
    le16 (encodeFrame type seq payload) 2 = BitVec.ofNat 16 payload.length :=
  halves_append 8 (BitVec.ofNat 16 payload.length)

theorem headerSays_encodeFrame (type : BitVec 8) (seq : BitVec 16) (payload : List Byte) (h : payload.length ≤ 65535) :
    HeaderSays (encodeFrame type seq payload) payload.length := by
  refine ⟨?_, rfl, rfl, ?_⟩
  · rw [encodeFrame_length]
    omega
  · rw [← le16_toNat, le16_encodeFrame_size, BitVec.toNat_ofNat]
    omega

theorem payloadOf_encodeFrame (type : BitVec 8) (seq : BitVec 16) (payload : List Byte) :
    payloadOf (encodeFrame type seq payload) payload.length = payload :=
  List.take_left

/-! ## The finger-sample payload (R72, R73) -/

@[simp] theorem Record.bytes_length (r : Record) : r.bytes.length = 32 := rfl

/-! Reading past one whole field. -/

theorem le64_bytesLE64_append (v : BitVec 64) (t : List Byte) (o : Nat) : le64 (bytesLE64 v ++ t) (o + 8) = le64 t o := by
  rw [Nat.add_comm]
  exact le64_append_right (bytesLE64 v) t o

theorem le32_bytesLE64_append (v : BitVec 64) (t : List Byte) (o : Nat) : le32 (bytesLE64 v ++ t) (o + 8) = le32 t o := by
  rw [Nat.add_comm]
  exact le32_append_right (bytesLE64 v) t o

theorem le32_bytesLE32_append (v : BitVec 32) (t : List Byte) (o : Nat) : le32 (bytesLE32 v ++ t) (o + 4) = le32 t o := by
  rw [Nat.add_comm]
  exact le32_append_right (bytesLE32 v) t o

/-- A record written at the start of a sequence reads back, bit for bit (R163). -/
theorem recordAt_bytes_append (r : Record) (t : List Byte) : recordAt (r.bytes ++ t) 0 = r := by
  simp [recordAt, Record.bytes, le64_bytes_append, le32_bytes_append, le64_bytesLE64_append, le32_bytesLE64_append,
    le32_bytesLE32_append]

theorem recordAt_append_right (s t : List Byte) (o : Nat) : recordAt (s ++ t) (s.length + o) = recordAt t o := by
  simp [recordAt, Nat.add_assoc, le64_append_right, le32_append_right]

/-- The records stand one after another, 32 bytes each. -/
theorem recordAt_flatMap_bytes (records : List Record) (t : List Byte) (i : Nat) (h : i < records.length) :
    recordAt (records.flatMap Record.bytes ++ t) (recSize * i) = records[i] := by
  induction records generalizing i with
  | nil => cases h
  | cons r records ih =>
    rw [List.flatMap_cons, List.append_assoc]
    cases i with
    | zero => exact recordAt_bytes_append r _
    | succ i =>
      have hoff : recSize * (i + 1) = r.bytes.length + recSize * i := by
        rw [Nat.mul_succ, Nat.add_comm]
        rfl
      rw [hoff, recordAt_append_right, ih i (Nat.lt_of_succ_lt_succ h), List.getElem_cons_succ]

theorem fingerPayload_length (timestamp : BitVec 64) (records : List Record) (extra : List Byte) :
    (fingerPayload timestamp records extra).length = fsFixed + recSize * records.length + extra.length := by
  simp [fingerPayload, List.length_flatMap, Record.bytes_length, fsFixed, recSize]
  omega

theorem le64_fingerPayload (timestamp : BitVec 64) (records : List Record) (extra : List Byte) :
    le64 (fingerPayload timestamp records extra) 0 = timestamp := by
  simp [fingerPayload, le64_bytes_append]

theorem byteAt_fingerPayload_count (timestamp : BitVec 64) (records : List Record) (extra : List Byte) :
    byteAt (fingerPayload timestamp records extra) 8 = BitVec.ofNat 8 records.length := rfl

theorem recordsOf_fingerPayload (timestamp : BitVec 64) (records : List Record) (extra : List Byte) :
    recordsOf (fingerPayload timestamp records extra) records.length = records := by
  apply List.ext_getElem
  · simp [recordsOf]
  · intro i _ hi
    have hfixed : fingerPayload timestamp records extra
        = (bytesLE64 timestamp ++ [BitVec.ofNat 8 records.length]) ++ (records.flatMap Record.bytes ++ extra) := by
      simp [fingerPayload]
    have hread := recordAt_append_right (bytesLE64 timestamp ++ [BitVec.ofNat 8 records.length])
      (records.flatMap Record.bytes ++ extra) (recSize * i)
    rw [recordAt_flatMap_bytes records extra i hi, ← hfixed] at hread
    rw [← hread]
    simp [recordsOf, fsFixed]

/-- Dispatching a finger-sample payload gives its timestamp and records back, whatever bytes follow them (R158). -/
theorem dispatch_fingerPayload (seq : BitVec 16) (timestamp : BitVec 64) (records : List Record) (extra : List Byte)
    (h : records.length ≤ 255) :
    dispatch typeFinger seq (fingerPayload timestamp records extra).length (fingerPayload timestamp records extra)
      = .ok (.fingerSample seq timestamp records) := by
  have hlen := fingerPayload_length timestamp records extra
  have hcount : (byteAt (fingerPayload timestamp records extra) 8).toNat = records.length := by
    rw [byteAt_fingerPayload_count, BitVec.toNat_ofNat]
    omega
  rw [dispatch, if_pos rfl, if_neg (by omega)]
  simp only [hcount]
  rw [if_neg (by omega), le64_fingerPayload, recordsOf_fingerPayload]

/-- A frame that carries an event is a frame whose payload dispatches to that event. -/
theorem Event.frame_dispatches (e : Event) (h : e.framed = true) :
    ∃ type seq payload, e.frame = encodeFrame type seq payload ∧ payload.length ≤ 65535
      ∧ dispatch type seq payload.length payload = .ok e := by
  cases e with
  | fingerSample seq timestamp records =>
    have hcount : records.length ≤ 255 := by simpa [Event.framed] using h
    refine ⟨_, _, _, rfl, ?_, dispatch_fingerPayload seq timestamp records [] hcount⟩
    rw [fingerPayload_length, fsFixed, recSize, List.length_nil]
    omega
  | unknown type seq payload =>
    obtain ⟨htype, hsize⟩ : type ≠ typeFinger ∧ payload.length ≤ 65535 := by simpa [Event.framed] using h
    exact ⟨type, seq, payload, rfl, hsize, if_neg htype⟩

end Sys2Proof.Machine
end

