-- ==== Sys2Proof/Proofs/FrameIteration.lean ====
section
/-!
PROOF. One iteration of the drain loop on the frame of an event (spec/42_frame_parser.md rules R150, R158 and R159).
-/

namespace Sys2Proof.Machine

/-- With fewer than 11 bytes buffered the loop stops at once (R151). -/
theorem iterate_of_size_lt {s : State} (h : s.size < minBuf) : iterate s = .stop .seekMagic := by
  rw [iterate, if_pos h]

theorem headerSays_append {f : List Byte} {psize : Nat} (h : HeaderSays f psize) (rest : List Byte) :
    HeaderSays (f ++ rest) psize := by
  obtain ⟨hlen, h0, h1, hsize⟩ := h
  refine ⟨?_, ?_, ?_, ?_⟩
  · rw [List.length_append]
    omega
  · rwa [byteAt_append_left f rest 0 (by omega)]
  · rwa [byteAt_append_left f rest 1 (by omega)]
  · rwa [byteAt_append_left f rest 2 (by omega), byteAt_append_left f rest 3 (by omega)]

/-- The first seven unread bytes are the header. -/
theorem le16_peek_hdr (s : State) (o : Nat) (h : o + 2 ≤ hdr) : le16 (s.peek hdr) o = le16 s.content o :=
  le16_take s.content hdr o h

theorem le16_peek_hdr_magic {s : State} {psize : Nat} (h : HeaderSays s.content psize) :
    le16 (s.peek hdr) 0 = magic := by
  obtain ⟨-, h0, h1, -⟩ := h
  rw [le16_peek_hdr s 0 (by decide), le16, h0, h1]
  rfl

theorem le16_peek_hdr_size {s : State} {psize : Nat} (h : HeaderSays s.content psize) :
    (le16 (s.peek hdr) 2).toNat = psize := by
  obtain ⟨-, -, -, hsize⟩ := h
  rw [le16_peek_hdr s 2 (by decide), le16_toNat, hsize]

/-- A whole frame whose CRC is right and whose payload dispatches to an event is consumed and that event emitted. -/
theorem iterate_emit_of_dispatch {s : State} {f rest : List Byte} {psize : Nat} {e : Event} (hc : s.content = f ++ rest)
    (hh : HeaderSays f psize) (hl : f.length = 7 + psize + 4) (hcrc : crcOk f = true)
    (hd : dispatch (byteAt f 6) (le16 f 4) psize (payloadOf f psize) = .ok e) :
    iterate s = .emit e (s.consume f.length) := by
  have hsize : s.size = f.length + rest.length := by
    rw [← s.content_length, hc, List.length_append]
  have hheader : HeaderSays s.content psize := hc ▸ headerSays_append hh rest
  have htype : byteAt (s.peek hdr) 6 = byteAt f 6 := by
    rw [State.peek, byteAt_take _ _ _ (by decide), hc, byteAt_append_left _ _ _ (by omega)]
  have hseq : le16 (s.peek hdr) 4 = le16 f 4 := by
    rw [le16_peek_hdr s 4 (by decide), hc, le16_append_left _ _ _ (by omega)]
  have htotal : hdr + psize + trl = f.length := hl.symm
  have hframe : s.peek f.length = f := by
    rw [State.peek, hc, List.take_left]
  have hmin : minBuf = 11 := rfl
  rw [iterate, if_neg (by omega)]
  simp only [le16_peek_hdr_magic hheader, le16_peek_hdr_size hheader, htotal, hframe, htype, hseq, hd, hcrc]
  simp only [ne_eq, not_true_eq_false, if_false, if_true]
  rw [if_neg (by omega)]

/-- An iteration at the frame of an event emits that event and consumes the frame (R158, R159, R163). -/
theorem iterate_event_frame {s : State} {e : Event} {rest : List Byte} (he : e.framed = true)
    (hc : s.content = e.frame ++ rest) : iterate s = .emit e (s.consume e.frame.length) := by
  obtain ⟨type, seq, payload, hframe, hsize, hdisp⟩ := e.frame_dispatches he
  rw [hframe] at hc ⊢
  refine iterate_emit_of_dispatch hc (headerSays_encodeFrame type seq payload hsize) (encodeFrame_length type seq payload)
    (crcOk_encodeFrame type seq payload) ?_
  rwa [byteAt_encodeFrame_type, le16_encodeFrame_seq, payloadOf_encodeFrame]

end Sys2Proof.Machine
end

