-- ==== Sys2Proof/Proofs/FrameDelivery.lean ====
section
/-!
PROOF. One PARSE_DRAIN over the frames of any events, with an acceptance for each (spec/20_memory.md rule R51,
spec/70_reset_and_hazards.md rule R266).
-/

namespace Sys2Proof.Machine

theorem stepTimes_succ {s u : State} (h : step s = .next u) (k : Nat) : stepTimes (k + 1) s = stepTimes k u := by
  rw [stepTimes, h]

/-- An acceptance that is the host's first move is the move the block takes, with an event on offer or without. -/
theorem nextMove_acceptEvent {s : State} {rest : List HostMove} (h : s.moves = .acceptEvent :: rest) :
    s.nextMove = some (.acceptEvent, rest) := by
  unfold State.nextMove
  rw [h]
  split <;> rfl

theorem acceptOffered_of_hold {s : State} {h : Hold} (hh : s.hold = some h) :
    acceptOffered s = runDrain (h.emitted + 1) { s with hold := none, events := s.events ++ [h.event] } := by
  simp [acceptOffered, hh]

/-- Accepting the offered event delivers it, and the drain goes on with one event more behind it (R266). -/
theorem step_acceptEvent {s : State} {h : Hold} {rest : List HostMove} (hi : s.initialised = true)
    (hh : s.hold = some h) (hm : s.moves = .acceptEvent :: rest) :
    step s = runDrain (h.emitted + 1) { s with moves := rest, hold := none, events := s.events ++ [h.event] } := by
  rw [step_of_nextMove hi (nextMove_acceptEvent hm)]
  exact acceptOffered_of_hold hh

/-- The state in which a drain runs over the frames of `es`, the acceptances of their events next among the host's moves. -/
structure FramesBuffered (es : List Event) (rest : List HostMove) (s : State) : Prop where
  ring : s.RingWf
  initialised : s.initialised = true
  hold : s.hold = none
  moves : s.moves = List.replicate es.length .acceptEvent ++ rest
  framed : ∀ e ∈ es, e.framed = true
  content : s.content = es.flatMap Event.frame

/-- What a drain with `m` events behind it has done to `s` when it has delivered `es` and responded: it has answered the count
and emptied the buffer. -/
structure DrainDelivered (m : Nat) (es : List Event) (rest : List HostMove) (s t : State) : Prop where
  events : t.events = s.events ++ es
  responses : t.responses = s.responses ++ [⟨.ok, bytesLE32 (BitVec.ofNat 32 (m + es.length))⟩]
  content : t.content = []
  hold : t.hold = none
  moves : t.moves = rest
  status : t.status = s.status
  abandoned : t.abandoned = s.abandoned

/-- `s` with its first frame, that of `e`, consumed and `e` on offer, `m` events behind it (R266). -/
def State.offerFrame (s : State) (e : Event) (m : Nat) : State :=
  { s.consume e.frame.length with hold := some ⟨e, m⟩ }

/-- `s` with its first frame consumed and its event delivered, where the drain goes on (R266). -/
def State.afterFrame (s : State) (e : Event) (moves : List HostMove) : State :=
  { s.consume e.frame.length with hold := none, events := s.events ++ [e], moves := moves }

theorem FramesBuffered.afterFrame {e : Event} {es : List Event} {rest : List HostMove} {s : State}
    (h : FramesBuffered (e :: es) rest s) :
    FramesBuffered es rest (s.afterFrame e (List.replicate es.length .acceptEvent ++ rest)) where
  ring := s.consume_ringWf _ h.ring
  initialised := h.initialised
  hold := rfl
  moves := rfl
  framed e' he' := h.framed e' (.tail e he')
  content := by
    have hc : s.content = e.frame ++ es.flatMap Event.frame := h.content
    have hlen : e.frame.length ≤ s.size := by
      rw [← s.content_length, hc, List.length_append]
      omega
    have hpos : e.frame.length ≠ 0 := by
      obtain ⟨type, seq, payload, hframe, -⟩ := e.frame_dispatches (h.framed e (.head es))
      rw [hframe, encodeFrame_length]
      omega
    change (s.consume e.frame.length).content = _
    rw [s.content_consume _ h.ring hlen fun hz => hpos hz.1, hc, List.drop_left]

theorem DrainDelivered.cons {m : Nat} {e : Event} {es : List Event} {rest ms : List HostMove} {s t : State}
    (h : DrainDelivered (m + 1) es rest (s.afterFrame e ms) t) : DrainDelivered m (e :: es) rest s t where
  events := by
    rw [h.events]
    exact List.append_assoc s.events [e] es
  responses := by
    rw [h.responses, List.length_cons, Nat.add_assoc, Nat.add_comm 1]
    rfl
  content := h.content
  hold := h.hold
  moves := h.moves
  status := h.status
  abandoned := h.abandoned

/-- A drain over the frames of `es` delivers them one acceptance at a time, then answers. -/
theorem runDrain_delivers (es : List Event) (rest : List HostMove) (m : Nat) (s : State) (h : FramesBuffered es rest s) :
    ∃ u t, runDrain m s = .next u ∧ stepTimes es.length u = .next t ∧ DrainDelivered m es rest s t := by
  induction es generalizing m s with
  | nil =>
    have hsize : s.size = 0 := by
      rw [← s.content_length, h.content]
      rfl
    have hstop := iterate_of_size_lt (s := s) (by rw [hsize]; decide)
    exact ⟨_, _, runDrain_stop m s _ hstop, rfl,
      ⟨(List.append_nil _).symm, rfl, h.content, h.hold, h.moves, rfl, rfl⟩⟩
  | cons e es ih =>
    obtain ⟨u, t, hdrain, hsteps, hdone⟩ := ih (m + 1) _ h.afterFrame
    have hemit := iterate_event_frame (h.framed e (.head es)) h.content
    have hstep : step (s.offerFrame e m) = .next u :=
      (step_acceptEvent (s := s.offerFrame e m) h.initialised rfl h.moves).trans hdrain
    exact ⟨s.offerFrame e m, t, runDrain_emit m s _ e hemit, (stepTimes_succ hstep es.length).trans hsteps, hdone.cons⟩

/-- Settles O52, by induction on the events: each frame is emitted whole, and its acceptance leaves the frames behind it. -/
theorem bufferedFramesAreAllDelivered : Obligations.BufferedFramesAreAllDelivered := by
  rintro s es rest ⟨-, hr, -⟩ hi hf hh hm hframed hc
  obtain ⟨u, t, hdrain, hsteps, hdone⟩ := runDrain_delivers es rest 0
    { s with moves := List.replicate es.length .acceptEvent ++ rest, abandoned := false } ⟨hr, hi, hh, rfl, hframed, hc⟩
  have hstep : step s = .next u := by
    rw [stepRunsTheDecodedInstruction s _ _ _ .parseDrain hi hh hm rfl, ← hdrain]
    exact whenNotFaulted_run { s with moves := _, abandoned := false } _ hf
  refine ⟨t, (stepTimes_succ hstep _).trans hsteps, hdone.events, ?_, hdone.content, hdone.hold, hdone.moves,
    hdone.status, ?_⟩
  · rw [hdone.responses, Nat.zero_add]
  · intro hrest
    exact ⟨⟨hdone.hold, hdone.abandoned⟩, congrArg (Option.map Hold.event) hdone.hold, hdone.moves.trans hrest⟩

end Sys2Proof.Machine
end

