-- ==== Sys2Proof/Proofs/CommandEncoding.lean ====
section
/-!
PROOF. The encoder and the decoder undo each other (spec/30_encoding.md rules R60 to R67): a pair (word, data) decodes to an
instruction exactly when it is that instruction's encoding, and a byte stream splits where the word says.
-/

namespace Sys2Proof

open Laws.Framing (opcOf_wordOf subOf_wordOf immOf_wordOf lengthImm_toNat)

/-! ## The words that stand for an instruction (R62) -/

/-- A word is known by its three fields (R60). -/
theorem eq_wordOf {w : Word} {opc sub : BitVec 8} {imm : BitVec 16} (hopc : opcOf w = opc) (hsub : subOf w = sub)
    (himm : immOf w = imm) : w = wordOf opc sub imm := by
  rw [← hopc, ← hsub, ← himm, wordOf_fields]

theorem opcOf_eq {w : Word} {n : Nat} (h : (opcOf w).toNat = n) : opcOf w = BitVec.ofNat 8 n := by
  rw [← h, BitVec.ofNat_toNat, BitVec.setWidth_eq]

theorem regOf_regNumber (r : Reg) : regOf (regNumber r) = some r := by
  cases r <;> rfl

/-- A register has one number (R29). -/
theorem eq_regNumber_of_regOf {sub : BitVec 8} {r : Reg} (h : regOf sub = some r) : sub = regNumber r := by
  unfold regOf at h
  split at h <;> cases h <;> exact BitVec.eq_of_toNat_eq ‹_›

/-- Only the well-formed instructions have data bytes that fit `IMM` (R65). -/
theorem Instr.wf_eq_fitsImm (i : Instr) : i.wf = fitsImm (encodeData i) := by
  cases i <;> rfl

/-- The word of an instruction asks for the data bytes encoded with it (R65). -/
theorem dataLength_encodeWord (i : Instr) (h : i.wf = true) : dataLength (encodeWord i) = (encodeData i).length := by
  cases i with
  | nop => exact Laws.Framing.nop h
  | rbPush d => exact Laws.Framing.rbPush d h
  | rbPeek len => exact Laws.Framing.rbPeek len h
  | rbRead len => exact Laws.Framing.rbRead len h
  | rbConsume len => exact Laws.Framing.rbConsume len h
  | rbSize => exact Laws.Framing.rbSize h
  | rbFree => exact Laws.Framing.rbFree h
  | rbCap => exact Laws.Framing.rbCap h
  | crcCompute d => exact Laws.Framing.crcCompute d h
  | crcValidate d => exact Laws.Framing.crcValidate d h
  | parseDrain => exact Laws.Framing.parseDrain h
  | buildHeartbeat seq => exact Laws.Framing.buildHeartbeat seq h
  | regRead r => exact Laws.Framing.regRead r h
  | reset => exact Laws.Framing.reset h

theorem decodeWord_encodeWord (i : Instr) : decodeWord (encodeWord i) (encodeData i) = .ok i := by
  cases i with
  | regRead r =>
    simp [decodeWord, encodeWord, opcOf_wordOf, subOf_wordOf, immOf_wordOf, withImmZero, regOf_regNumber]
  | _ =>
    simp [decodeWord, encodeWord, encodeData, opcOf_wordOf, subOf_wordOf, immOf_wordOf, withSubZero, withImmZero]

/-- A carrying word with as many data bytes as it requires has their number in `IMM` (R65). -/
theorem immOf_eq_lengthImm {w : Word} {d : List Byte} (hd : d.length = dataLength w) (hc : carriesData (opcOf w) = true) :
    immOf w = lengthImm d := by
  rw [dataLength, if_pos hc] at hd
  rw [lengthImm, hd, BitVec.ofNat_toNat, BitVec.setWidth_eq]

theorem eq_nil_of_not_carriesData {w : Word} {d : List Byte} (hd : d.length = dataLength w)
    (hc : carriesData (opcOf w) = false) : d = [] := by
  rw [dataLength, hc] at hd
  exact List.length_eq_zero_iff.mp hd

/-- No row of the opcode map loses a field of the word (R62, R63). -/
theorem eq_encode_of_decodeWord {w : Word} {d : List Byte} {i : Instr} (hd : d.length = dataLength w)
    (h : decodeWord w d = .ok i) : w = encodeWord i ∧ d = encodeData i := by
  have hcarry := immOf_eq_lengthImm hd
  have hnil := eq_nil_of_not_carriesData hd
  unfold decodeWord at h
  split at h <;> rename_i hopc
  case h_15 => cases h
  case h_13 => -- REG_READ: the register is in `SUB`
    replace hopc := opcOf_eq hopc
    obtain ⟨himm, h⟩ := withImmZero_ok.mp h
    split at h <;> cases h
    rename_i r hr
    exact ⟨eq_wordOf hopc (eq_regNumber_of_regOf hr) himm, hnil (by rw [hopc]; rfl)⟩
  case h_1 | h_6 | h_7 | h_8 | h_11 | h_14 => -- the rows without an operand: `IMM` is 0
    replace hopc := opcOf_eq hopc
    obtain ⟨hsub, h⟩ := withSubZero_ok.mp h
    obtain ⟨himm, ⟨⟩⟩ := withImmZero_ok.mp h
    exact ⟨eq_wordOf hopc hsub himm, hnil (by rw [hopc]; rfl)⟩
  case h_3 | h_4 | h_5 | h_12 => -- the rows with a length or a sequence number in `IMM`
    replace hopc := opcOf_eq hopc
    obtain ⟨hsub, ⟨⟩⟩ := withSubZero_ok.mp h
    exact ⟨eq_wordOf hopc hsub rfl, hnil (by rw [hopc]; rfl)⟩
  case h_2 | h_9 | h_10 => -- the carrying rows: `IMM` is the number of data bytes
    replace hopc := opcOf_eq hopc
    obtain ⟨hsub, ⟨⟩⟩ := withSubZero_ok.mp h
    exact ⟨eq_wordOf hopc hsub (hcarry (by rw [hopc]; rfl)), rfl⟩

/-- What decodes is exactly what is encoded. -/
theorem decodeCommand_eq_ok {w : Word} {d : List Byte} {i : Instr} :
    decodeCommand w d = .ok i ↔ i.wf = true ∧ w = encodeWord i ∧ d = encodeData i := by
  constructor
  · intro h
    unfold decodeCommand at h
    split at h
    case isFalse => cases h
    case isTrue hd =>
      obtain ⟨rfl, rfl⟩ := eq_encode_of_decodeWord hd h
      refine ⟨?_, rfl, rfl⟩
      have hlen : dataLength (encodeWord i) ≤ 65535 := by
        unfold dataLength
        split <;> omega
      rw [i.wf_eq_fitsImm]
      exact decide_eq_true (hd ▸ hlen)
  · rintro ⟨hw, rfl, rfl⟩
    rw [decodeCommand, if_pos (dataLength_encodeWord i hw).symm]
    exact decodeWord_encodeWord i

/-! ## Commands in a byte stream (R67) -/

/-- A stream that begins with a word and the data bytes it requires splits behind them. -/
theorem splitCommand_append {w : Word} {d : List Byte} (rest : List Byte) (hd : d.length = dataLength w) :
    splitCommand (bytesLE32 w ++ d ++ rest) = some (w, d, rest) := by
  have hdrop : (bytesLE32 w ++ (d ++ rest)).drop 4 = d ++ rest := rfl
  simp [splitCommand, le32_bytes_append, hdrop, ← hd]

theorem dataLength_eq_ite (w : Word) :
    dataLength w = if opcOf w = 0x01 ∨ opcOf w = 0x10 ∨ opcOf w = 0x11 then (immOf w).toNat else 0 := by
  simp [dataLength, carriesData, or_assoc]

/-- Settles O1: the stream splits where the encoded word says, and the pair there is the instruction's encoding. -/
theorem decodingUndoesEncoding : Obligations.DecodingUndoesEncoding := by
  intro i rest hw
  have hsplit := splitCommand_append rest (dataLength_encodeWord i hw).symm
  rw [decode, encode, hsplit]
  simp only [decodeCommand_eq_ok.mpr ⟨hw, rfl, rfl⟩]

/-- Settles O2, row by row of the opcode map. -/
theorem encodingUndoesDecoding : Obligations.EncodingUndoesDecoding := by
  intro w d i h
  obtain ⟨hw, hword, hdata⟩ := decodeCommand_eq_ok.mp h
  exact ⟨hw, hword.symm, hdata.symm⟩

/-- Settles O3: the `k` of R67 is the number of data bytes the word requires. -/
theorem byteStreamIsFramedByTheWord : Obligations.ByteStreamIsFramedByTheWord := by
  intro w d rest hd
  rw [← dataLength_eq_ite] at hd
  exact ⟨by simp, splitCommand_append rest hd⟩

/-- Settles O4: each word is evaluated. -/
theorem specWordsDecode : Obligations.SpecWordsDecode := by
  unfold Obligations.SpecWordsDecode
  decide +kernel

end Sys2Proof
end

