-- ==== Sys2Proof/Proofs/LegalWords.lean ====
section
/-!
PROOF. Which words are legal, and what a step does with a command whose word is legal, illegal, or asks for other data bytes
(spec/30_encoding.md rules R63 and R66, spec/60_exceptions.md rule R223).
-/

namespace Sys2Proof

open Laws.Framing (opcOf_wordOf subOf_wordOf immOf_wordOf)
open Machine (LegalWord legalOpcodes immZeroOpcodes)

/-! ## The legal words (R63) -/

theorem regOf_of_le {sub : BitVec 8} (h : sub.toNat ≤ 6) : ∃ r, regOf sub = some r := by
  unfold regOf
  generalize sub.toNat = n at h
  interval_cases n <;> exact ⟨_, rfl⟩

/-- REG_READ's numbers run from 0 to 6 (R29). -/
theorem regNumber_le (r : Reg) : (regNumber r).toNat ≤ 6 := by
  cases r <;> decide

theorem legalWord_encodeWord (i : Instr) : LegalWord (encodeWord i) := by
  cases i with
  | regRead r =>
    simp [LegalWord, encodeWord, opcOf_wordOf, subOf_wordOf, immOf_wordOf, legalOpcodes, regNumber_le]
  | _ => simp [LegalWord, encodeWord, opcOf_wordOf, subOf_wordOf, immOf_wordOf, legalOpcodes, immZeroOpcodes]

/-- Each row of the opcode map decodes under the conditions of R63. -/
theorem decodeWord_of_legalWord {w : Word} (h : LegalWord w) (d : List Byte) : ∃ i, decodeWord w d = .ok i := by
  obtain ⟨hopc, hsub, himm⟩ := h
  have hzero : opcOf w ≠ 0x40 → subOf w = 0 := fun hne => hsub.resolve_right fun hreg => hne hreg.1
  unfold decodeWord
  split <;> rename_i hrow
  case h_15 => -- no row has the opcode, so R62 does not list it
    simp_all [legalOpcodes, ← BitVec.toNat_inj]
  case h_13 => -- REG_READ
    replace hrow := opcOf_eq hrow
    obtain ⟨r, hr⟩ := regOf_of_le (sub := subOf w) (by rcases hsub with h | ⟨-, h⟩ <;> simp [h])
    exact ⟨.regRead r, withImmZero_ok.mpr ⟨himm (by rw [hrow]; decide), by rw [hr]⟩⟩
  case h_1 | h_6 | h_7 | h_8 | h_11 | h_14 => -- the rows without an operand
    replace hrow := opcOf_eq hrow
    exact ⟨_, withSubZero_ok.mpr ⟨hzero (by rw [hrow]; decide), withImmZero_ok.mpr ⟨himm (by rw [hrow]; decide), rfl⟩⟩⟩
  all_goals -- the rows with an operand in `IMM`
    replace hrow := opcOf_eq hrow
    exact ⟨_, withSubZero_ok.mpr ⟨hzero (by rw [hrow]; decide), rfl⟩⟩

/-- The legal words are the words that decode with the data bytes they require. -/
theorem legalWord_iff {w : Word} {d : List Byte} (hd : d.length = dataLength w) :
    LegalWord w ↔ ∃ i, decodeCommand w d = .ok i := by
  constructor
  · intro h
    rw [decodeCommand, if_pos hd]
    exact decodeWord_of_legalWord h d
  · rintro ⟨i, h⟩
    obtain ⟨-, rfl, -⟩ := decodeCommand_eq_ok.mp h
    exact legalWord_encodeWord i

end Sys2Proof

namespace Sys2Proof.Machine

/-! ## Commands that do not decode -/

theorem issue_of_length_ne {w : Word} {d : List Byte} (hd : d.length ≠ dataLength w) (s : State) :
    issue w d s = .refused .dataLength := by
  simp [issue, decodeCommand, hd]

/-- The word itself is never rejected for its data bytes. -/
theorem decodeWord_ne_dataLength (w : Word) (d : List Byte) :
    decodeWord w d ≠ .error .dataLength ∧ decodeWord w d ≠ .error .truncated := by
  unfold decodeWord withSubZero withImmZero
  (repeat' split) <;> simp

theorem issue_of_not_legalWord {w : Word} {d : List Byte} (hd : d.length = dataLength w) (hl : ¬LegalWord w) (s : State) :
    issue w d s = illegalCommand (opcOf w) s := by
  have hdec : decodeCommand w d = decodeWord w d := if_pos hd
  obtain ⟨hlen, htrunc⟩ := decodeWord_ne_dataLength w d
  rw [← hdec] at hlen htrunc
  unfold issue
  split
  case h_1 i h => exact absurd ((legalWord_iff hd).mpr ⟨i, h⟩) hl
  case h_2 h => exact absurd h hlen
  case h_3 h => exact absurd h htrunc
  all_goals rfl

/-- Settles O7: no other check comes before that of the data length. -/
theorem wrongDataLengthIsRefused : Obligations.WrongDataLengthIsRefused := by
  intro s w d rest hi hh hm hd
  rw [step_of_nextMove hi (nextMove_of_hold_none hh hm), takeMove_command]
  exact issue_of_length_ne hd _

/-! ## Illegal words (R223) -/

/-- Step 1 of R223 answers for a faulted block, unless `OPC` is that of REG_READ or RESET. -/
theorem illegalCommand_faulted {opc : BitVec 8} {s : State} (hf : s.faulted = true) (h40 : opc ≠ 0x40)
    (hF0 : opc ≠ 0xF0) : illegalCommand opc s = .next (s.respond .faulted []) := by
  rw [illegalCommand, if_neg (not_or.mpr ⟨h40, hF0⟩)]
  exact whenNotFaulted_faulted s _ hf

theorem illegalCommand_raise {opc : BitVec 8} {s : State} (h : s.faulted = false ∨ opc = 0x40 ∨ opc = 0xF0) :
    illegalCommand opc s = .next (s.raise .illegalCommand) := by
  by_cases hopc : opc = 0x40 ∨ opc = 0xF0
  · exact if_pos hopc
  · rw [illegalCommand, if_neg hopc]
    exact whenNotFaulted_run s _ (h.resolve_right hopc)

/-- A first fault is recorded with its cause (R220). -/
theorem raise_illegalCommand_recorded {s : State} (hf : s.faulted = false) :
    (s.raise .illegalCommand).faulted = true ∧ (s.raise .illegalCommand).cause = 1 := by
  have hst : (s.raise .illegalCommand).status = statusOf .illegalCommand := by
    simp [statusAfterFault, hf]
  rw [State.faulted, State.cause, hst]
  decide

/-- Settles O5: the legal words are those that decode, and every other word takes the checks of R223 in order. -/
theorem legalWordsRunAndIllegalWordsFault : Obligations.LegalWordsRunAndIllegalWordsFault := by
  intro s w d rest hi hh hm hd
  have hstep : step s = issue w d { s with moves := rest, abandoned := false } :=
    step_of_nextMove hi (nextMove_of_hold_none hh hm)
  refine ⟨fun hl => ?_, fun hl hf h40 hF0 => ?_, fun hl hrun => ?_⟩
  · obtain ⟨i, hdec⟩ := (legalWord_iff hd).mp hl
    exact ⟨i, hdec, stepRunsTheDecodedInstruction s w d rest i hi hh hm hdec⟩
  · rw [hstep, issue_of_not_legalWord hd hl]
    exact illegalCommand_faulted hf h40 hF0
  · rw [hstep, issue_of_not_legalWord hd hl]
    exact ⟨_, illegalCommand_raise hrun, fun hf => raise_illegalCommand_recorded hf, fun hf => if_pos hf, rfl⟩

end Sys2Proof.Machine
end

