-- ==== Sys2Proof/Proofs/Acceptance.lean ====
section
/-!
PROOF. An acceptance delivers the offered event, and the drain goes on as a PARSE_DRAIN would, but for the count
(spec/42_frame_parser.md rule R150, spec/70_reset_and_hazards.md rule R266).
-/

namespace Sys2Proof.Machine

/-- The events behind a drain change nothing but the count it answers or holds with. Of the block it writes `TAIL` and `FULL`
alone. -/
theorem drain_ends_alike (fuel : Nat) (s : State) (hr : s.RingWf) (hf : s.size < fuel) :
    ∃ tail full,
      (∀ m, drain fuel m s = .next ({ s with tail := tail, full := full }.respondNat m))
        ∨ ∃ e, ∀ m, drain fuel m s = .next { s with tail := tail, full := full, hold := some ⟨e, m⟩ } := by
  induction fuel generalizing s with
  | zero => omega
  | succ fuel ih =>
    simp only [drain]
    cases hi : iterate s with
    | stop ph => exact ⟨s.tail, s.full, .inl fun _ => rfl⟩
    | discard why s' =>
      obtain ⟨n, h1, hn, rfl⟩ := iterate_discard s s' why hi
      have hsize := s.size_consume n hr hn (by omega)
      exact ih (s.consume n) (s.consume_ringWf n hr) (by omega)
    | emit e s' =>
      obtain ⟨n, -, -, rfl, -⟩ := iterate_emit s s' e hi
      exact ⟨_, _, .inr ⟨e, fun _ => rfl⟩⟩

/-- A drain with `m` events behind it does what one with none does, and answers or holds with `m` where that has 0. -/
theorem runDrain_alike (m : Nat) (s : State) (hr : s.RingWf) (hh : s.hold = none) :
    ∃ t u, runDrain m s = .next t ∧ runDrain 0 s = .next u ∧ t.events = s.events ∧ t.moves = s.moves
      ∧ ((u.hold = none ∧ t = { u with responses := s.responses ++ [⟨.ok, bytesLE32 (BitVec.ofNat 32 m)⟩] })
        ∨ ∃ e, u.hold = some ⟨e, 0⟩ ∧ u.responses = s.responses ∧ t = { u with hold := some ⟨e, m⟩ }) := by
  obtain ⟨tail, full, halike | ⟨e, halike⟩⟩ := drain_ends_alike (s.size + 1) s hr (by omega)
  · exact ⟨_, _, halike m, halike 0, rfl, rfl, .inl ⟨hh, rfl⟩⟩
  · exact ⟨_, _, halike m, halike 0, rfl, rfl, .inr ⟨e, rfl, rfl, rfl⟩⟩

theorem exec_parseDrain_of_not_faulted {s : State} (hf : s.faulted = false) : exec .parseDrain s = runDrain 0 s :=
  whenNotFaulted_run s _ hf

/-- Settles O11: the drain that goes on and the PARSE_DRAIN run alike, and a block on hold has no fault recorded. -/
theorem acceptanceDeliversTheOfferedEvent : Obligations.AcceptanceDeliversTheOfferedEvent := by
  rintro s h rest ⟨-, hr, -, -, hhold⟩ hi hh hm
  obtain ⟨-, hst, -, -⟩ := hhold h hh
  have hf : s.faulted = false := by simp [State.faulted, hst]
  obtain ⟨t, u, ht, hu, hrest⟩ := runDrain_alike (h.emitted + 1)
    { s with moves := rest, hold := none, events := s.events ++ [h.event] } hr rfl
  refine ⟨t, u, (step_acceptEvent hi hh hm).trans ht, ?_, hrest⟩
  rw [← hu]
  exact exec_parseDrain_of_not_faulted hf

end Sys2Proof.Machine
end

