-- ==== Sys2Proof/Proofs/EventBytes.lean ====
section
/-!
PROOF. Events as bytes (spec/30_encoding.md rule R81): each field written by division, and the event read back from its bytes.
-/

namespace Sys2Proof.Machine

/-! ## Little-endian fields by division (spec/00_scope.md rule R12) -/

/-- A byte of a field is a byte of the vector. -/
theorem extractLsb'_extractLsb' {n : Nat} (v : BitVec n) (start len o k : Nat) (h : o + k ≤ len) :
    (v.extractLsb' start len).extractLsb' o k = v.extractLsb' (start + o) k := by
  ext i hi
  simp [show o + i < len by omega, Nat.add_assoc]

theorem extractLsb'_eq_div {n : Nat} (v : BitVec n) (i : Nat) :
    v.extractLsb' (8 * i) 8 = BitVec.ofNat 8 (v.toNat / 256 ^ i) := by
  rw [BitVec.extractLsb', Nat.shiftRight_eq_div_pow, Nat.pow_mul]

theorem littleEndian_toNat {n : Nat} (k : Nat) (v : BitVec n) :
    littleEndian k v.toNat = (List.range k).map fun i => v.extractLsb' (8 * i) 8 := by
  simp only [littleEndian, extractLsb'_eq_div]

theorem bytesLE16_eq (v : BitVec 16) : bytesLE16 v = littleEndian 2 v.toNat := by
  rw [littleEndian_toNat]
  rfl

theorem bytesLE32_eq (v : BitVec 32) : bytesLE32 v = littleEndian 4 v.toNat := by
  rw [littleEndian_toNat]
  simp [bytesLE32, bytesLE16, List.range_succ, extractLsb'_extractLsb']

theorem bytesLE64_eq (v : BitVec 64) : bytesLE64 v = littleEndian 8 v.toNat := by
  rw [littleEndian_toNat]
  simp [bytesLE64, bytesLE32, bytesLE16, List.range_succ, extractLsb'_extractLsb']

/-- The bytes of a number do not see what its vector cuts off. -/
theorem littleEndian_mod (k v : Nat) : littleEndian k (v % 256 ^ k) = littleEndian k v := by
  refine List.map_congr_left fun i hi => BitVec.eq_of_toNat_eq ?_
  have hik : 256 ^ k = 256 ^ i * 256 ^ (k - i) := by
    rw [← pow_add, Nat.add_sub_cancel' (List.mem_range.mp hi).le]
  have hdvd : 256 ∣ 256 ^ (k - i) := dvd_pow_self 256 (Nat.sub_ne_zero_of_lt (List.mem_range.mp hi))
  rw [hik, Nat.mod_mul_right_div_self, BitVec.toNat_ofNat, BitVec.toNat_ofNat]
  exact Nat.mod_mod_of_dvd _ hdvd

theorem bytesLE16_ofNat (v : Nat) : bytesLE16 (BitVec.ofNat 16 v) = littleEndian 2 v := by
  rw [bytesLE16_eq, BitVec.toNat_ofNat]
  exact littleEndian_mod 2 v

theorem bytesLE16_injective : Function.Injective bytesLE16 :=
  Function.LeftInverse.injective (g := fun s => le16 s 0) le16_bytes

/-! ## The two events (R81) -/

theorem littleEndian_one (v : Nat) : littleEndian 1 v = [BitVec.ofNat 8 v] := by
  simp [littleEndian]

theorem Record.bytes_eq (r : Record) :
    r.bytes = littleEndian 8 r.x.toNat ++ littleEndian 8 r.y.toNat ++ littleEndian 8 r.z.toNat
      ++ littleEndian 4 r.state.toNat ++ littleEndian 4 r.temp.toNat := by
  simp only [Record.bytes, bytesLE64_eq, bytesLE32_eq]

/-- A FingerSample is its sequence number and the payload it came in (R72). -/
theorem Event.fingerSample_bytes (seq : BitVec 16) (timestamp : BitVec 64) (records : List Record) :
    (Event.fingerSample seq timestamp records).bytes = 0x01 :: bytesLE16 seq ++ fingerPayload timestamp records [] := by
  simp [Event.bytes, fingerPayload]

theorem Event.fingerSample_bytes_length (seq : BitVec 16) (timestamp : BitVec 64) (records : List Record) :
    (Event.fingerSample seq timestamp records).bytes.length = 12 + 32 * records.length := by
  rw [Event.fingerSample_bytes, List.length_append, fingerPayload_length, fsFixed, recSize]
  simp
  omega

theorem Event.unknown_bytes_length (type : BitVec 8) (seq : BitVec 16) (payload : List Byte) :
    (Event.unknown type seq payload).bytes.length = 6 + payload.length := by
  simp [Event.bytes]
  omega

/-- The payload reads back as the timestamp and the records (R158). -/
theorem fingerSample_bytes_inj {seq seq' : BitVec 16} {timestamp timestamp' : BitVec 64} {records records' : List Record}
    (h : records.length ≤ 255) (h' : records'.length ≤ 255)
    (hb : (Event.fingerSample seq timestamp records).bytes = (Event.fingerSample seq' timestamp' records').bytes) :
    Event.fingerSample seq timestamp records = Event.fingerSample seq' timestamp' records' := by
  rw [Event.fingerSample_bytes, Event.fingerSample_bytes] at hb
  obtain ⟨hhead, hpayload⟩ := List.append_inj hb rfl
  obtain rfl := bytesLE16_injective (List.tail_eq_of_cons_eq hhead)
  have hdisp := dispatch_fingerPayload seq timestamp records [] h
  rw [hpayload, dispatch_fingerPayload seq timestamp' records' [] h'] at hdisp
  exact (Except.ok.inj hdisp).symm

theorem unknown_bytes_inj {type type' : BitVec 8} {seq seq' : BitVec 16} {payload payload' : List Byte}
    (hb : (Event.unknown type seq payload).bytes = (Event.unknown type' seq' payload').bytes) :
    Event.unknown type seq payload = Event.unknown type' seq' payload' := by
  obtain ⟨hhead, rfl⟩ := List.append_inj hb rfl
  obtain ⟨hhead, -⟩ := List.append_inj hhead rfl
  obtain ⟨htype, hseq⟩ := List.append_inj hhead rfl
  obtain rfl := bytesLE16_injective hseq
  cases htype
  rfl

/-- Events that the port can carry are known by their bytes; the tag tells the two kinds apart. -/
theorem Event.bytes_inj {e e' : Event} (he : e.wf = true) (he' : e'.wf = true) (hb : e.bytes = e'.bytes) : e = e' := by
  cases e with
  | fingerSample seq timestamp records =>
    cases e' with
    | fingerSample seq' timestamp' records' =>
      exact fingerSample_bytes_inj (of_decide_eq_true he) (of_decide_eq_true he') hb
    | unknown type seq' payload => exact absurd (congrArg List.head? hb) (by simp [Event.bytes])
  | unknown type seq payload =>
    cases e' with
    | fingerSample seq' timestamp records => exact absurd (congrArg List.head? hb) (by simp [Event.bytes])
    | unknown type' seq' payload' => exact unknown_bytes_inj hb

/-- Settles O59, field by field; an event is read back from its bytes as the parser reads it from its frame. -/
theorem eventsSerialiseAsLaidOutAndDistinctly : Obligations.EventsSerialiseAsLaidOutAndDistinctly := by
  refine ⟨fun seq timestamp records => ⟨?_, Event.fingerSample_bytes_length seq timestamp records⟩,
    fun type seq payload => ⟨?_, Event.unknown_bytes_length type seq payload⟩, fun e e' => Event.bytes_inj⟩
  · simp only [Event.bytes, bytesLE16_eq, bytesLE64_eq, littleEndian_one, funext Record.bytes_eq]
  · rw [Event.bytes, bytesLE16_eq, bytesLE16_ofNat]

end Sys2Proof.Machine
end

