-- ==== Sys2Proof/Proofs/Feed.lean ====
section
/-!
PROOF. The pushes of a FEED carry its chunk, in order (spec/30_encoding.md rule R69).
-/

namespace Sys2Proof.Machine

/-- With fuel for every byte, the pushes join to the chunk; how a longer one is cut does not matter (log entry 19). -/
theorem pushChunks_eq_map (fuel : Nat) (chunk : List Byte) (hf : chunk.length < fuel) :
    ∃ ds : List (List Byte), pushChunks fuel chunk = ds.map Instr.rbPush ∧ ds.flatten = chunk
      ∧ (∀ d ∈ ds, d.length ≤ 65535) ∧ (chunk.length ≤ 65535 → ds = [chunk]) := by
  induction fuel generalizing chunk with
  | zero => omega
  | succ fuel ih =>
    rw [pushChunks]
    split
    case isTrue h => exact ⟨[chunk], rfl, by simp, by simpa using h, fun _ => rfl⟩
    case isFalse h =>
      obtain ⟨ds, hpush, hflat, hlen, -⟩ := ih (chunk.drop 65535) (by rw [List.length_drop]; omega)
      refine ⟨chunk.take 65535 :: ds, by rw [hpush, List.map_cons], ?_, ?_, fun hle => absurd hle h⟩
      · rw [List.flatten_cons, hflat, List.take_append_drop]
      · exact List.forall_mem_cons.mpr ⟨List.length_take_le _ _, hlen⟩

/-- Settles O60: FEED gives the pushes fuel for every byte of the chunk. -/
theorem feedPushesTheChunkThenDrains : Obligations.FeedPushesTheChunkThenDrains := by
  intro chunk
  obtain ⟨ds, hpush, hrest⟩ := pushChunks_eq_map (chunk.length + 1) chunk (Nat.lt_succ_self _)
  exact ⟨ds, by rw [feed, hpush], hrest⟩

end Sys2Proof.Machine
end

