-- ==== Sys2Proof/Proofs/RingPush.lean ====
section
/-!
PROOF. RB_PUSH as a whole (spec/40_ring_buffer.md rules R100 to R102 and R114): the effects of one byte, folded over the data.
-/

namespace Sys2Proof.Machine

/-! ## One byte, without the case split on FULL -/

/-- FULL says that SIZE has reached CAP (R25). -/
theorem State.full_iff_cap_le_size (s : State) (hr : s.RingWf) : s.full = true ↔ s.cap ≤ s.size := by
  refine ⟨fun hf => (s.size_full hf).ge, fun hle => ?_⟩
  by_contra hf
  exact absurd (s.size_lt_cap hr (by simpa using hf)) (by omega)

theorem State.size_pushByte_eq_min (s : State) (b : Byte) (hr : s.RingWf) :
    (s.pushByte b).size = min s.cap (s.size + 1) := by
  rw [s.size_pushByte b hr]
  cases hf : s.full
  · have hlt := s.size_lt_cap hr hf
    exact (Nat.min_eq_right hlt).symm
  · have hsize := s.size_full hf
    rw [if_pos rfl]
    omega

/-- One byte evicts what does not fit: the oldest byte of a full buffer. -/
theorem State.content_pushByte_eq_drop (s : State) (b : Byte) (hr : s.RingWf) (hm : Memory.wf s.mem = true) :
    (s.pushByte b).content = (s.content ++ [b]).drop (s.size + 1 - s.cap) := by
  rw [s.content_pushByte b hr hm]
  cases hf : s.full
  · have hlt := s.size_lt_cap hr hf
    rw [show s.size + 1 - s.cap = 0 by omega]
    rfl
  · have hsize := s.size_full hf
    have hpos : 0 < s.cap := Nat.zero_lt_of_lt hr.1
    rw [show s.size + 1 - s.cap = 1 by omega, List.drop_append_of_le_length (by rw [s.content_length]; omega)]
    rfl

/-- TAIL advances by the number of evicted bytes. -/
theorem State.tail_pushByte_eq (s : State) (b : Byte) (hr : s.RingWf) :
    (s.pushByte b).tail = (s.tail + (s.size + 1 - s.cap)) % s.cap := by
  rw [State.pushByte_tail]
  cases hf : s.full
  · have hlt := s.size_lt_cap hr hf
    rw [show s.size + 1 - s.cap = 0 by omega]
    exact (Nat.mod_eq_of_lt hr.2.1).symm
  · have hsize := s.size_full hf
    rw [show s.size + 1 - s.cap = 1 by omega]
    rfl

/-! ## The whole push -/

/-- R101 and R114 at once: of the unread bytes and the pushed ones, the first `SIZE + n - CAP` are gone. -/
theorem State.content_push (s : State) (d : List Byte) (hr : s.RingWf) (hm : s.MemWf) :
    (s.push d).content = (s.content ++ d).drop (s.size + d.length - s.cap) := by
  induction d generalizing s with
  | nil =>
    have hle := s.size_le_cap hr
    rw [s.push_nil, List.append_nil, List.length_nil, show s.size + 0 - s.cap = 0 by omega]
    rfl
  | cons b d ih =>
    have hle := s.size_le_cap hr
    rw [s.push_cons, ih _ (s.pushByte_ringWf b hr) (s.pushByte_memWf b hr.1 hm), s.content_pushByte_eq_drop b hr hm.1,
      s.size_pushByte_eq_min b hr, State.pushByte_cap,
      ← List.drop_append_of_le_length (by simp), List.drop_drop, List.append_assoc, List.singleton_append,
      List.length_cons]
    congr 1
    omega

theorem State.size_push (s : State) (d : List Byte) (hr : s.RingWf) (hm : s.MemWf) :
    (s.push d).size = min s.cap (s.size + d.length) := by
  rw [← State.content_length, s.content_push d hr hm, List.length_drop, List.length_append, s.content_length]
  omega

theorem State.head_push (s : State) (d : List Byte) (hh : s.head < s.cap) :
    (s.push d).head = (s.head + d.length) % s.cap := by
  induction d generalizing s with
  | nil => exact (Nat.mod_eq_of_lt hh).symm
  | cons b d ih =>
    rw [s.push_cons, ih (s.pushByte b) (Nat.mod_lt _ (Nat.zero_lt_of_lt hh)), State.pushByte_head, State.pushByte_cap,
      Nat.mod_add_mod, List.length_cons, Nat.add_assoc, Nat.add_comm 1]

theorem State.tail_push (s : State) (d : List Byte) (hr : s.RingWf) :
    (s.push d).tail = (s.tail + (s.size + d.length - s.cap)) % s.cap := by
  induction d generalizing s with
  | nil =>
    have hle := s.size_le_cap hr
    rw [s.push_nil, List.length_nil, show s.size + 0 - s.cap = 0 by omega]
    exact (Nat.mod_eq_of_lt hr.2.1).symm
  | cons b d ih =>
    have hle := s.size_le_cap hr
    rw [s.push_cons, ih _ (s.pushByte_ringWf b hr), s.tail_pushByte_eq b hr, s.size_pushByte_eq_min b hr,
      State.pushByte_cap, Nat.mod_add_mod, List.length_cons, Nat.add_assoc]
    congr 2
    omega

/-! ## The storage -/

/-- The writes of a push start at `HEAD` and go on from there, one index each (R41, R100). -/
theorem State.read_push_of_ne (s : State) (d : List Byte) (a : Nat) (hp : s.canPush d = true)
    (ha : ∀ k, k < d.length → a ≠ (s.head + k) % s.cap) : Memory.read (s.push d).mem a = Memory.read s.mem a := by
  induction d generalizing s with
  | nil => rfl
  | cons b d ih =>
    have hh : s.head < s.cap := by simpa [State.canPush] using hp
    have hne : s.head ≠ a := by simpa [Nat.mod_eq_of_lt hh, eq_comm] using ha 0 (by simp)
    rw [s.push_cons, ih (s.pushByte b), State.pushByte_mem, Memory.read_write_ne _ _ _ _ hne]
    · simp [State.canPush, Nat.mod_lt _ (Nat.zero_lt_of_lt hh)]
    · intro k hk
      rw [State.pushByte_head, State.pushByte_cap, Nat.mod_add_mod, Nat.add_assoc, Nat.add_comm 1]
      exact ha (k + 1) (by simpa using hk)

/-- A byte that fewer than CAP bytes follow stands where it was written. -/
theorem State.read_push (s : State) (d : List Byte) (k : Nat) (hr : s.RingWf) (hm : s.MemWf) (hk : k < d.length)
    (hkeep : d.length ≤ k + s.cap) : Memory.read (s.push d).mem ((s.head + k) % s.cap) = byteAt d k := by
  induction d generalizing s k with
  | nil => cases hk
  | cons b d ih =>
    have hh := hr.1
    rw [List.length_cons] at hk hkeep
    rw [s.push_cons]
    cases k with
    | zero => -- the rest of the data wraps to just before `HEAD` at most
      rw [Nat.add_zero, Nat.mod_eq_of_lt hh, State.read_push_of_ne, State.pushByte_mem, Memory.read_write_same _ _ _ hm.1]
      · rfl
      · simp [State.canPush, Nat.mod_lt _ (Nat.zero_lt_of_lt hh)]
      · intro j hj
        have hmod := mod_once (s.head + (1 + j)) s.cap (by omega)
        rw [State.pushByte_head, State.pushByte_cap, Nat.mod_add_mod, Nat.add_assoc]
        omega
    | succ k =>
      have hih := ih (s.pushByte b) k (s.pushByte_ringWf b hr) (s.pushByte_memWf b hh hm) (by omega)
        (by rw [State.pushByte_cap]; omega)
      rw [State.pushByte_head, State.pushByte_cap, Nat.mod_add_mod, Nat.add_assoc, Nat.add_comm 1] at hih
      exact hih

/-! ## The command -/

/-- RB_PUSH never fails (R102). -/
theorem exec_rbPush_of_not_faulted {s : State} (d : List Byte) (hr : s.RingWf) (hf : s.faulted = false) :
    exec (.rbPush d) s = .next ((s.push d).respond .ok []) := by
  have hp : s.canPush d = true := by simp [State.canPush, hr.1]
  exact (whenNotFaulted_run s _ hf).trans (if_pos hp)

/-- An RB_PUSH that is answered was refused by a faulted block, or has pushed its data. -/
theorem exec_rbPush_next {s t : State} {d : List Byte} (h : exec (.rbPush d) s = .next t) :
    t = s.respond .faulted [] ∨ s.canPush d = true ∧ t = (s.push d).respond .ok [] := by
  rcases whenNotFaulted_next s t _ h with ⟨-, rfl⟩ | ⟨-, hrun⟩
  · exact .inl rfl
  · split at hrun <;> cases hrun
    exact .inr ⟨‹_›, rfl⟩

/-- Settles O18: what the push leaves is a last part of the unread and the pushed bytes, as long as the buffer allows. -/
theorem pushAppendsAndEvictsTheOldest : Obligations.PushAppendsAndEvictsTheOldest := by
  rintro s d ⟨-, hr, hm, -⟩ hf
  have hcontent := s.content_push d hr hm
  refine ⟨_, exec_rbPush_of_not_faulted d hr hf, by simp, ?_, ?_, s.size_push d hr hm⟩
  · rw [State.content_respond, hcontent, lastBytes, List.length_append, s.content_length]
    congr 1
    omega
  · rw [State.content_respond, hcontent, List.take_append_drop]

/-- Settles O19, by the index and storage lemmas of the whole push. -/
theorem pushRealisesTheIndices : Obligations.PushRealisesTheIndices := by
  rintro s d ⟨-, hr, hm, -⟩ hf
  refine ⟨_, exec_rbPush_of_not_faulted d hr hf, s.head_push d hr.1, s.tail_push d hr, ?_,
    fun k => s.read_push d k hr hm⟩
  rw [State.respond_full, State.full_iff_cap_le_size _ (s.push_wf d hr hm).1, s.size_push d hr hm, State.push_cap]
  omega

/-- Settles O20: a push writes no other register, and of the storage only where its data go. -/
theorem pushFrame : Obligations.PushFrame := by
  intro s t d h
  rcases exec_rbPush_next h with rfl | ⟨hp, rfl⟩
  · exact ⟨rfl, rfl, rfl, rfl, rfl, rfl, rfl, ⟨_, rfl⟩, fun _ _ => rfl⟩
  · exact ⟨s.push_cap d, s.push_status d, s.push_hold d, s.push_initialised d, s.push_moves d, s.push_abandoned d,
      s.push_events d, ⟨⟨.ok, []⟩, by simp⟩, fun a => s.read_push_of_ne d a hp⟩

end Sys2Proof.Machine
end

