-- ==== Sys2Proof/Proofs/RingConsume.lean ====
section
/-!
PROOF. RB_READ and RB_CONSUME (spec/40_ring_buffer.md rules R105 to R109), and the commands that ask about the ring buffer and
change nothing (R103, R104, R111 to R113).
-/

namespace Sys2Proof.Machine

/-! ## The commands of a block with no fault, by their checks -/

section
variable {s : State} {len : BitVec 16} (hf : s.faulted = false)
include hf

theorem exec_rbRead_of_size_lt (hn : s.size < len.toNat) : exec (.rbRead len) s = .next (s.respond .insufficient []) :=
  (whenNotFaulted_run s _ hf).trans (congrArg _ (if_pos hn))

theorem exec_rbRead_of_le_size (hn : len.toNat ≤ s.size) :
    exec (.rbRead len) s = .next (consumeWith s len.toNat (s.peek len.toNat)) :=
  (whenNotFaulted_run s _ hf).trans (congrArg _ (if_neg hn.not_gt))

theorem exec_rbConsume_of_size_lt (hn : s.size < len.toNat) : exec (.rbConsume len) s = .next (s.raise .consumeOverrun) :=
  (whenNotFaulted_run s _ hf).trans (congrArg _ (if_pos hn))

theorem exec_rbConsume_of_le_size (hn : len.toNat ≤ s.size) :
    exec (.rbConsume len) s = .next (consumeWith s len.toNat []) :=
  (whenNotFaulted_run s _ hf).trans (congrArg _ (if_neg hn.not_gt))

/-- The first fault is recorded with its cause (R220). -/
theorem State.raise_recorded (c : Cause) : (s.raise c).faulted = true ∧ (s.raise c).cause = c.code := by
  have hst : (s.raise c).status = statusOf c := by simp [statusAfterFault, hf]
  rw [State.faulted, State.cause, hst]
  cases c <;> decide

end

theorem consumeWith_zero_full {s : State} (data : List Byte) (hfull : s.full = true) :
    consumeWith s 0 data = s.raise .zeroConsumeFull :=
  if_pos ⟨rfl, hfull⟩

theorem consumeWith_of_not_zero_full {s : State} {n : Nat} (data : List Byte) (hz : ¬(n = 0 ∧ s.full = true)) :
    consumeWith s n data = (s.consume n).respond .ok data :=
  if_neg hz

/-- R107's case, on the operand. -/
theorem not_zero_full_toNat {s : State} {len : BitVec 16} (hz : ¬(len = 0 ∧ s.full = true)) :
    ¬(len.toNat = 0 ∧ s.full = true) := fun h => hz ⟨BitVec.eq_of_toNat_eq h.1, h.2⟩

/-- Consuming nothing changes nothing where FULL is clear already (R107). -/
theorem State.consume_zero (s : State) (hr : s.RingWf) (hfull : s.full = false) : s.consume 0 = s := by
  have htail : (s.tail + 0) % s.cap = s.tail := Nat.mod_eq_of_lt hr.2.1
  rw [State.consume, htail, ← hfull]

/-! ## RB_READ and RB_CONSUME -/

/-- Settles O22, by the two branches of RB_READ. -/
theorem readIsPeekAndConsume : Obligations.ReadIsPeekAndConsume := by
  rintro s len ⟨-, hr, -⟩ hf hz
  have hz := not_zero_full_toNat hz
  refine ⟨exec_rbRead_of_size_lt hf, fun hn => ⟨_, ?_, rfl, s.content_consume _ hr hn hz, s.size_consume _ hr hn hz⟩⟩
  rw [exec_rbRead_of_le_size hf hn, consumeWith_of_not_zero_full _ hz]
  rfl

/-- Settles O23: RB_CONSUME drops what RB_READ would return. -/
theorem consumeDiscardsTheOldest : Obligations.ConsumeDiscardsTheOldest := by
  rintro s len ⟨-, hr, -⟩ hf hz hn
  have hz := not_zero_full_toNat hz
  refine ⟨_, ?_, rfl, s.content_consume _ hr hn hz, s.size_consume _ hr hn hz⟩
  rw [exec_rbConsume_of_le_size hf hn, consumeWith_of_not_zero_full _ hz]
  rfl

/-- Settles O24: the overrun check comes before anything is consumed. -/
theorem consumeOverrunFaults : Obligations.ConsumeOverrunFaults := by
  intro s len hf hn
  obtain ⟨hfault, hcause⟩ := State.raise_recorded hf .consumeOverrun
  exact ⟨_, exec_rbConsume_of_size_lt hf hn, hfault, hcause, rfl⟩

/-- Settles O25: both commands reach R107's check, which `FULL` decides. -/
theorem lengthZeroConsumeOnFullFaults : Obligations.LengthZeroConsumeOnFullFaults := by
  rintro s ⟨-, hr, -⟩ hf
  have hread : exec (.rbRead 0) s = .next (consumeWith s 0 []) := exec_rbRead_of_le_size hf (Nat.zero_le _)
  have hconsume : exec (.rbConsume 0) s = .next (consumeWith s 0 []) := exec_rbConsume_of_le_size hf (Nat.zero_le _)
  rw [hread, hconsume]
  refine ⟨fun hfull => ?_, fun hfull => ?_⟩
  · obtain ⟨hfault, hcause⟩ := State.raise_recorded hf .zeroConsumeFull
    rw [consumeWith_zero_full _ hfull]
    exact ⟨⟨_, rfl, hfault, hcause, rfl⟩, ⟨_, rfl, hfault, hcause, rfl⟩⟩
  · rw [consumeWith_of_not_zero_full _ (by simp [hfull]), s.consume_zero hr hfull]
    exact ⟨rfl, rfl⟩

/-! ## How the two commands can end -/

/-- The ends of a command that consumes `n` bytes and answers `data`: it may answer without data, fault, or consume. -/
inductive ConsumeEnds (s : State) (n : Nat) (data : List Byte) : State → Prop
  | answer (st : Status) : ConsumeEnds s n data (s.respond st [])
  | raise (c : Cause) (hc : c ≠ .illegalCommand) : ConsumeEnds s n data (s.raise c)
  | consume (hn : n ≤ s.size) (hz : ¬(n = 0 ∧ s.full = true)) : ConsumeEnds s n data ((s.consume n).respond .ok data)

theorem consumeWith_consumeEnds (s : State) (n : Nat) (data : List Byte) (hn : n ≤ s.size) :
    ConsumeEnds s n data (consumeWith s n data) := by
  unfold consumeWith
  split
  · exact .raise _ nofun
  · exact .consume hn ‹_›

theorem exec_rbRead_consumeEnds {s t : State} {len : BitVec 16} (h : exec (.rbRead len) s = .next t) :
    ConsumeEnds s len.toNat (s.peek len.toNat) t := by
  rcases whenNotFaulted_next s t _ h with ⟨-, rfl⟩ | ⟨-, ⟨⟩⟩
  · exact .answer _
  · split
    · exact .answer _
    · exact consumeWith_consumeEnds s _ _ (Nat.le_of_not_gt ‹_›)

theorem exec_rbConsume_consumeEnds {s t : State} {len : BitVec 16} (h : exec (.rbConsume len) s = .next t) :
    ConsumeEnds s len.toNat [] t := by
  rcases whenNotFaulted_next s t _ h with ⟨-, rfl⟩ | ⟨-, ⟨⟩⟩
  · exact .answer _
  · split
    · exact .raise _ nofun
    · exact consumeWith_consumeEnds s _ _ (Nat.le_of_not_gt ‹_›)

/-- Settles O26, by how the two commands can end. -/
theorem readAndConsumeFrame : Obligations.ReadAndConsumeFrame := by
  intro i s t len hi h
  have hends : ∃ data, ConsumeEnds s len.toNat data t := by
    rcases hi with rfl | rfl
    · exact ⟨_, exec_rbRead_consumeEnds h⟩
    · exact ⟨_, exec_rbConsume_consumeEnds h⟩
  obtain ⟨data, hends⟩ := hends
  cases hends with
  | answer st =>
    exact ⟨rfl, rfl, rfl, rfl, rfl, rfl, rfl, ⟨_, rfl, fun _ => ⟨rfl, rfl⟩, fun _ _ => rfl⟩, fun _ => rfl⟩
  | raise c hc =>
    refine ⟨rfl, rfl, rfl, rfl, rfl, rfl, rfl, ⟨_, rfl, fun _ => ⟨rfl, rfl⟩, fun hover hunset => ?_⟩, fun _ => rfl⟩
    cases c with
    | illegalCommand => exact absurd rfl hc
    | consumeOverrun => exact absurd rfl hover
    | zeroConsumeFull => exact absurd rfl hunset
  | consume hn hz =>
    exact ⟨rfl, rfl, rfl, rfl, rfl, rfl, rfl, ⟨_, rfl, fun hok => absurd rfl hok, fun _ _ => rfl⟩, fun _ => rfl⟩

/-- A command that has consumed has removed the oldest bytes, in order; one that has not, none. -/
theorem ConsumeEnds.content_suffix {s t : State} {n : Nat} {data : List Byte} (h : ConsumeEnds s n data t) (hr : s.RingWf) :
    t.content <:+ s.content := by
  cases h with
  | answer st => exact List.suffix_rfl
  | raise c => exact List.suffix_rfl
  | consume hn hz =>
    rw [State.content_respond, s.content_consume n hr hn hz]
    exact List.drop_suffix n s.content

/-- A command that answers the bytes it consumes answers exactly those it removes (R106). -/
theorem ConsumeEnds.data_append_content {s t : State} {n : Nat} (h : ConsumeEnds s n (s.peek n) t) (hr : s.RingWf) :
    ∃ r, t.responses = s.responses ++ [r] ∧ s.content = r.data ++ t.content := by
  cases h with
  | answer st => exact ⟨_, rfl, rfl⟩
  | raise c => exact ⟨_, rfl, rfl⟩
  | consume hn hz =>
    refine ⟨_, rfl, ?_⟩
    rw [State.content_respond, s.content_consume n hr hn hz, State.peek, List.take_append_drop]

/-! ## Questions about the ring buffer -/

/-- Settles O21, by the one check of RB_PEEK. -/
theorem peekReturnsWithoutConsuming : Obligations.PeekReturnsWithoutConsuming := by
  intro s len hf
  refine (whenNotFaulted_run s _ hf).trans ?_
  by_cases hn : s.size < len.toNat
  · rw [if_pos hn]
    exact congrArg _ (if_pos hn)
  · rw [if_neg hn]
    exact congrArg _ (if_neg hn)

/-- Settles O27: `SIZE` is the number of unread bytes. -/
theorem sizeFreeAndCapAnswer : Obligations.SizeFreeAndCapAnswer := by
  intro s hf
  rw [s.content_length]
  exact ⟨whenNotFaulted_run s _ hf, whenNotFaulted_run s _ hf, whenNotFaulted_run s _ hf⟩

end Sys2Proof.Machine
end

