-- ==== Sys2Proof/Proofs/FifoLaw.lean ====
section
/-!
PROOF. The FIFO law (spec/40_ring_buffer.md rule R110): every command but RESET leaves a last part of the unread bytes and the
bytes it pushes.
-/

namespace Sys2Proof.Machine

/-- A drain only consumes, and so leaves a last part of the unread bytes (spec/42_frame_parser.md rule R150). -/
theorem runDrain_content_suffix {m : Nat} {s t : State} (hr : s.RingWf) (h : runDrain m s = .next t) :
    t.content <:+ s.content := by
  have hconsume : ∀ (v : State) (n : Nat), (v.RingWf ∧ v.content <:+ s.content) → 1 ≤ n → n ≤ v.size →
      (v.consume n).RingWf ∧ (v.consume n).content <:+ s.content := by
    rintro v n ⟨hv, hsuffix⟩ h1 hn
    refine ⟨v.consume_ringWf n hv, ?_⟩
    rw [v.content_consume n hv hn (by omega)]
    exact (List.drop_suffix n v.content).trans hsuffix
  obtain ⟨u, ⟨-, hu⟩, ⟨-, -, rfl⟩ | ⟨-, -, -, -, -, -, -, -, -, rfl⟩⟩ :=
    drain_next _ hconsume _ m s t ⟨hr, List.suffix_rfl⟩ h
  · exact hu
  · exact hu

/-- Where all of `d` fits, RB_PUSH removes nothing. -/
theorem exec_rbPush_content_of_fits {s t : State} {d : List Byte} (hr : s.RingWf) (hm : s.MemWf) (hf : s.faulted = false)
    (hfit : s.size + d.length ≤ s.cap) (h : exec (.rbPush d) s = .next t) : t.content = s.content ++ d := by
  rw [exec_rbPush_of_not_faulted d hr hf] at h
  cases h
  rw [State.content_respond, s.content_push d hr hm, Nat.sub_eq_zero_of_le hfit, List.drop_zero]

/-- Of the commands that do not push, none but RESET removes other bytes than the oldest. -/
theorem exec_content_suffix {i : Instr} {s t : State} (hr : s.RingWf) (h : exec i s = .next t) (hreset : i ≠ .reset)
    (hpush : ∀ d, i ≠ .rbPush d) : t.content <:+ s.content := by
  cases hread : readsOnly i
  · cases i with
    | rbPush d => exact absurd rfl (hpush d)
    | reset => exact absurd rfl hreset
    | rbRead len => exact (exec_rbRead_consumeEnds h).content_suffix hr
    | rbConsume len => exact (exec_rbConsume_consumeEnds h).content_suffix hr
    | parseDrain =>
      rcases whenNotFaulted_next s t _ h with ⟨-, rfl⟩ | ⟨-, hrun⟩
      · exact List.suffix_rfl
      · exact runDrain_content_suffix hr hrun
    | nop | rbPeek | rbSize | rbFree | rbCap | crcCompute | crcValidate | buildHeartbeat | regRead => cases hread
  · obtain ⟨st, d, -, hnext⟩ := (exec_answersOnly i s hread).next
    rw [hnext] at h
    cases h
    exact List.suffix_rfl

/-- Where nothing is evicted, the bytes a command removes stand in front of those it leaves, and RB_READ answers them. -/
theorem exec_removes {i : Instr} {s t : State} (hr : s.RingWf) (hm : s.MemWf) (hf : s.faulted = false)
    (hreset : i ≠ .reset) (hfit : s.size + (pushedBy i).length ≤ s.cap) (h : exec i s = .next t) :
    ∃ removed, s.content ++ pushedBy i = removed ++ t.content
      ∧ ∀ len, i = .rbRead len → ∃ r, t.responses = s.responses ++ [r] ∧ r.data = removed := by
  cases i with
  | rbPush d => exact ⟨[], (exec_rbPush_content_of_fits hr hm hf hfit h).symm, nofun⟩
  | rbRead len =>
    obtain ⟨r, hresp, hc⟩ := (exec_rbRead_consumeEnds h).data_append_content hr
    exact ⟨r.data, (List.append_nil _).trans hc, fun _ _ => ⟨r, hresp, rfl⟩⟩
  | _ =>
    obtain ⟨removed, hc⟩ := exec_content_suffix hr h hreset nofun
    exact ⟨removed, (List.append_nil _).trans hc.symm, nofun⟩

/-- Settles O29: what is left is at most what was there and was pushed, so it is at most CAP. -/
theorem fifoLaw : Obligations.FifoLaw := by
  rintro i s t ⟨-, hr, hm, -⟩ hf hi hfit h
  obtain ⟨removed, hremoved, hread⟩ := exec_removes hr hm hf hi hfit h
  refine ⟨removed, hremoved, ?_, hread⟩
  have hcap := exec_keepsCap i s t h
  have hlen := congrArg List.length hremoved
  simp only [List.length_append, State.content_length] at hlen
  rw [State.free]
  omega

end Sys2Proof.Machine
end

