-- ==== Sys2Proof/Proofs/CrcRegister.lean ====
section
/-!
PROOF. The CRC register (spec/41_crc.md rule R130) as a linear map of the register and the bytes: what it holds after a
sequence's own CRC, and that no step of it forgets anything.
-/

namespace Sys2Proof.Machine

/-! ## One turn of the inner loop -/

/-- Each bit moves down by one, and the bit shifted out adds the polynomial. -/
theorem getLsbD_crcBit (c : Word) (i : Nat) :
    (crcBit c).getLsbD i = (c.getLsbD (1 + i) ^^ (c.getLsbD 0 && crcPoly.getLsbD i)) := by
  unfold crcBit
  cases c.getLsbD 0 <;> simp

theorem crcBit_xor (c d : Word) : crcBit (c ^^^ d) = crcBit c ^^^ crcBit d := by
  apply BitVec.eq_of_getLsbD_eq
  intro i _
  simp only [getLsbD_crcBit, BitVec.getLsbD_xor, Bool.and_xor_distrib_right, Bool.xor_assoc, Bool.xor_left_comm]

/-- The top bit of the polynomial is set, so the bit shifted out is the one shifted in. -/
theorem getLsbD_crcBit_top (c : Word) : (crcBit c).getLsbD 31 = c.getLsbD 0 := by
  rw [getLsbD_crcBit, BitVec.getLsbD_of_ge c (1 + 31) (by decide)]
  simp [crcPoly]

theorem crcBit_injective : Function.Injective crcBit := by
  intro c d h
  have hlow : c.getLsbD 0 = d.getLsbD 0 := by rw [← getLsbD_crcBit_top c, h, getLsbD_crcBit_top]
  apply BitVec.eq_of_getLsbD_eq
  intro i _
  cases i with
  | zero => exact hlow
  | succ i =>
    have hbit := congrArg (·.getLsbD i) h
    simpa only [getLsbD_crcBit, hlow, Bool.xor_left_inj, Nat.add_comm 1] using hbit

/-! ## Several turns -/

theorem crcBits_xor (n : Nat) (c d : Word) : crcBits n (c ^^^ d) = crcBits n c ^^^ crcBits n d := by
  induction n generalizing c d with
  | zero => rfl
  | succ n ih => rw [crcBits, crcBit_xor, ih, crcBits, crcBits]

theorem crcBits_injective (n : Nat) : Function.Injective (crcBits n) := by
  induction n with
  | zero => exact Function.injective_id
  | succ n ih => exact ih.comp crcBit_injective

/-- While only zeros reach bit 0, the loop is a shift. -/
theorem crcBits_eq_ushiftRight (n : Nat) (c : Word) (h : ∀ i < n, c.getLsbD i = false) : crcBits n c = c >>> n := by
  induction n generalizing c with
  | zero => rfl
  | succ n ih =>
    have hbit : crcBit c = c >>> 1 := by
      simp only [crcBit, h 0 n.succ_pos, Bool.false_eq_true, if_false]
    have hrest : ∀ i < n, (c >>> 1).getLsbD i = false := fun i hi => by
      rw [BitVec.getLsbD_ushiftRight]
      exact h (1 + i) (by omega)
    rw [crcBits, hbit, ih _ hrest, ← BitVec.shiftRight_add, Nat.add_comm]

/-! ## Bytes -/

theorem crcByte_register_injective (b : Byte) : Function.Injective (crcByte · b) := fun _ _ h =>
  (BitVec.xor_left_inj _).mp (crcBits_injective 8 h)

theorem crcByte_byte_injective (c : Word) : Function.Injective (crcByte c) := by
  intro a b h
  have hwide : a.setWidth 32 = b.setWidth 32 := (BitVec.xor_right_inj _).mp (crcBits_injective 8 h)
  simpa using congrArg (BitVec.setWidth 8) hwide

/-- The bytes after a point lose nothing of what the register held there. -/
theorem foldl_crcByte_injective (s : List Byte) : Function.Injective (s.foldl crcByte ·) := by
  induction s with
  | nil => exact Function.injective_id
  | cons b s ih => exact ih.comp (crcByte_register_injective b)

/-- Sequences that differ in one byte differ in their CRC. -/
theorem crc32_byte_injective (s t : List Byte) : Function.Injective fun b => crc32 (s ++ b :: t) := by
  intro a b h
  have hreg := (BitVec.xor_left_inj _).mp h
  rw [List.foldl_append, List.foldl_append] at hreg
  exact crcByte_byte_injective _ (foldl_crcByte_injective t hreg)

/-- A word is its low byte and, moved up again, the rest. -/
theorem lowByte_xor_rest (v : Word) : (v.extractLsb' 0 8).setWidth 32 ^^^ (v >>> 8) <<< 8 = v := by
  apply BitVec.eq_of_getLsbD_eq
  intro i hi
  by_cases h : i < 8
  · simp [h, hi]
  · simp [h, hi, show 8 + (i - 8) = i by omega]

/-- A word whose low byte is zero is moved down. -/
theorem crcBits_eight_rest (v : Word) : crcBits 8 ((v >>> 8) <<< 8) = v >>> 8 := by
  rw [crcBits_eq_ushiftRight 8 _ (by simp +contextual)]
  apply BitVec.eq_of_getLsbD_eq
  intro i _
  have htop : v.getLsbD (8 + i) = true → 8 + i < 32 := BitVec.lt_of_getLsbD
  simpa [Nat.add_comm] using htop

/-- A word taken in at once is its low byte taken in, with the rest of the word moved down and still to come. -/
theorem crcBits_eight_xor (c v : Word) : crcBits 8 (c ^^^ v) = crcByte c (v.extractLsb' 0 8) ^^^ v >>> 8 := by
  calc crcBits 8 (c ^^^ v)
      = crcBits 8 (c ^^^ (v.extractLsb' 0 8).setWidth 32 ^^^ (v >>> 8) <<< 8) := by
        rw [BitVec.xor_assoc, lowByte_xor_rest]
    _ = crcByte c (v.extractLsb' 0 8) ^^^ v >>> 8 := by rw [crcBits_xor, crcBits_eight_rest, crcByte]

theorem extractLsb'_zero_ushiftRight (v : Word) (k : Nat) : (v >>> k).extractLsb' 0 8 = v.extractLsb' k 8 := by
  ext i hi
  simp

theorem bytesLE32_eq_extractLsb' (v : Word) :
    bytesLE32 v = [v.extractLsb' 0 8, v.extractLsb' 8 8, v.extractLsb' 16 8, v.extractLsb' 24 8] := by
  simp [bytesLE32, bytesLE16, extractLsb'_extractLsb']

/-- The four bytes of a word, least significant first, are taken in as the word. -/
theorem foldl_crcByte_bytesLE32 (c v : Word) : (bytesLE32 v).foldl crcByte c = crcBits 32 (c ^^^ v) := by
  have hturns : crcBits 32 (c ^^^ v) = crcBits 8 (crcBits 8 (crcBits 8 (crcBits 8 (c ^^^ v)))) := rfl
  have hgone : v >>> 32 = 0#32 := BitVec.ushiftRight_eq_zero (Nat.le_refl 32)
  simp only [hturns, crcBits_eight_xor, ← BitVec.shiftRight_add, extractLsb'_zero_ushiftRight, hgone, BitVec.xor_zero,
    bytesLE32_eq_extractLsb', List.foldl_cons, List.foldl_nil]

/-- The residue of R132: a sequence's own CRC makes every bit of the register a one, whatever the sequence. -/
theorem crc32_append_own (s : List Byte) : crc32 (s ++ bytesLE32 (crc32 s)) = 0x2144DF1C := by
  have hones : ∀ c : Word, c ^^^ (c ^^^ crcXorOut) = crcXorOut := fun c => by
    rw [← BitVec.xor_assoc, BitVec.xor_self, BitVec.zero_xor]
  calc crc32 (s ++ bytesLE32 (crc32 s))
      = crcBits 32 (s.foldl crcByte crcInit ^^^ crc32 s) ^^^ crcXorOut := by
        rw [crc32, List.foldl_append, foldl_crcByte_bytesLE32]
    _ = crcBits 32 crcXorOut ^^^ crcXorOut := by rw [crc32, hones]
    _ = 0x2144DF1C := by decide +kernel

/-- Settles O31: the two values are evaluated, and the residue is that of a register of ones. -/
theorem crcReferenceValues : Obligations.CrcReferenceValues :=
  ⟨by decide +kernel, by decide +kernel, crc32_append_own⟩

end Sys2Proof.Machine
end

