-- ==== Sys2Proof/Proofs/CrcCheck.lean ====
section
/-!
PROOF. The frame check (spec/41_crc.md rules R133 to R137): what `crc_ok` says, CRC_COMPUTE and CRC_VALIDATE, and the
detection of single-bit errors.
-/

namespace Sys2Proof.Machine

/-! ## The two commands -/

/-- `crc_ok` (R133). -/
theorem crcOk_iff (f : List Byte) :
    crcOk f = true ↔ 4 ≤ f.length ∧ crc32 (f.take (f.length - 4)) = le32 f (f.length - 4) := by
  simp [crcOk]

theorem exec_crcValidate_of_lt {s : State} {d : List Byte} (hf : s.faulted = false) (hn : d.length < 4) :
    exec (.crcValidate d) s = .next (s.respond .insufficient []) :=
  (whenNotFaulted_run s _ hf).trans (congrArg _ (if_pos hn))

theorem exec_crcValidate_of_le {s : State} {d : List Byte} (hf : s.faulted = false) (hn : 4 ≤ d.length) :
    exec (.crcValidate d) s = .next (s.respond .ok [if crcOk d then 0x01 else 0x00]) :=
  (whenNotFaulted_run s _ hf).trans (congrArg _ (if_neg (Nat.not_lt.mpr hn)))

/-- Settles O30: past step 1 of R223, CRC_VALIDATE has the two checks of R135. -/
theorem crcCommandsAnswer : Obligations.CrcCommandsAnswer := by
  intro s d hf
  refine ⟨whenNotFaulted_run s _ hf, ?_⟩
  by_cases hn : d.length < 4
  · rw [if_pos hn]
    exact exec_crcValidate_of_lt hf hn
  · have hle : 4 ≤ d.length := Nat.not_lt.mp hn
    rw [if_neg hn, exec_crcValidate_of_le hf hle]
    by_cases hc : crc32 (d.take (d.length - 4)) = le32 d (d.length - 4)
    · rw [if_pos hc, if_pos ((crcOk_iff d).mpr ⟨hle, hc⟩)]
      rfl
    · rw [if_neg hc, if_neg fun h => hc ((crcOk_iff d).mp h).2]
      rfl

/-- Settles O32: the builder appends the body's own CRC. -/
theorem everyHeartbeatValidates : Obligations.EveryHeartbeatValidates := by
  intro seq
  have hok : crcOk (heartbeatFrame seq) = true := crcOk_encodeFrame typeHeartbeat seq hbPayload
  refine ⟨hok, fun s hf => ?_⟩
  rw [exec_crcValidate_of_le hf ((crcOk_iff _).mp hok).1, if_pos hok]
  rfl

/-! ## Single-bit errors -/

theorem bytesLE16_append (a b : Byte) : bytesLE16 (b ++ a) = [a, b] := by
  rw [bytesLE16, BitVec.extractLsb'_append_eq_right, BitVec.extractLsb'_append_eq_left]

theorem bytesLE32_append (v w : BitVec 16) : bytesLE32 (w ++ v) = bytesLE16 v ++ bytesLE16 w := by
  rw [bytesLE32, BitVec.extractLsb'_append_eq_right, BitVec.extractLsb'_append_eq_left]

/-- Four bytes are the bytes of the number they hold. -/
theorem bytesLE32_le32_of_length (t : List Byte) (h : t.length = 4) : bytesLE32 (le32 t 0) = t := by
  obtain ⟨a, b, c, d, rfl⟩ := List.length_eq_four.mp h
  rw [le32, bytesLE32_append, le16, le16, bytesLE16_append, bytesLE16_append]
  rfl

theorem le32_drop_zero (s : List Byte) (n : Nat) : le32 (s.drop n) 0 = le32 s n := by
  simp only [le32, le16, byteAt_drop, Nat.add_zero, Nat.add_assoc]

/-- A frame that passes the check is its body and the body's own CRC, so that its CRC is the residue of R132. -/
theorem crc32_of_crcOk {f : List Byte} (h : crcOk f = true) : crc32 f = 0x2144DF1C := by
  obtain ⟨hlen, hcrc⟩ := (crcOk_iff f).mp h
  have htrailer : (f.drop (f.length - 4)).length = 4 := by
    rw [List.length_drop]
    omega
  have hf : f.take (f.length - 4) ++ bytesLE32 (crc32 (f.take (f.length - 4))) = f := by
    rw [hcrc, ← le32_drop_zero, bytesLE32_le32_of_length _ htrailer, List.take_append_drop]
  rw [← hf]
  exact crc32_append_own _

/-- Two frames that pass the check do not differ in one byte alone. -/
theorem byteAt_eq_of_crcOk_set {f : List Byte} {k : Nat} {b : Byte} (hk : k < f.length) (hf : crcOk f = true)
    (hset : crcOk (f.set k b) = true) : b = byteAt f k := by
  have hself : f.set k (byteAt f k) = f := by rw [byteAt_of_lt f k hk, List.set_getElem_self]
  have hcrc : crc32 (f.set k b) = crc32 (f.set k (byteAt f k)) := by rw [hself, crc32_of_crcOk hset, crc32_of_crcOk hf]
  simp only [List.set_eq_take_append_cons_drop, if_pos hk] at hcrc
  exact crc32_byte_injective _ _ hcrc

theorem xor_shiftLeft_one_ne (x : Byte) {b : Nat} (hb : b < 8) : x ^^^ (1#8 <<< b) ≠ x := by
  intro h
  have hbit := congrArg (·.getLsbD b) h
  simp [hb] at hbit

/-- Settles O33: the flipped byte is another byte. -/
theorem singleBitErrorsAreDetected : Obligations.SingleBitErrorsAreDetected := by
  intro f k b hf hk hb
  rw [Bool.eq_false_iff]
  exact fun hset => xor_shiftLeft_one_ne _ hb (byteAt_eq_of_crcOk_set hk hf hset)

end Sys2Proof.Machine
end

