-- ==== Sys2Proof/Proofs/DrainIteration.lean ====
section
/-!
PROOF. One iteration of the drain loop, an equation per branch, and all it can do, said once (spec/42_frame_parser.md rules R151
to R157).
-/

namespace Sys2Proof.Machine

/-! ## The header at the front of the buffer -/

/-- The magic field "matches exactly when those bytes are `5A A5`, in that order" (R152). -/
theorem le16_eq_magic_iff (c : List Byte) : le16 c 0 = magic ↔ byteAt c 0 = 0x5A ∧ byteAt c 1 = 0xA5 := by
  constructor
  · intro h
    have hnat : (le16 c 0).toNat = 42330 := by rw [h]; rfl
    rw [le16_toNat, Nat.zero_add] at hnat
    have hlow := (byteAt c 0).isLt
    exact ⟨BitVec.eq_of_toNat_eq (by omega : _ = 0x5A), BitVec.eq_of_toNat_eq (by omega : _ = 0xA5)⟩
  · rintro ⟨h0, h1⟩
    rw [le16, h0, h1]
    rfl

/-- A buffer of seven bytes that opens with the magic has a header, and its size field says some `psize` (R153). -/
theorem headerSays_of_magic {c : List Byte} (hlen : 7 ≤ c.length) (hm : byteAt c 0 = 0x5A ∧ byteAt c 1 = 0xA5) :
    ∃ psize, HeaderSays c psize :=
  ⟨_, hlen, hm.1, hm.2, rfl⟩

theorem headerSays_take {f : List Byte} {psize j : Nat} (h : HeaderSays f psize) (hj : 7 ≤ j) :
    HeaderSays (f.take j) psize := by
  obtain ⟨hlen, h0, h1, hsize⟩ := h
  refine ⟨?_, ?_, ?_, ?_⟩
  · rw [List.length_take]
    omega
  · rwa [byteAt_take f j 0 (by omega)]
  · rwa [byteAt_take f j 1 (by omega)]
  · rwa [byteAt_take f j 2 (by omega), byteAt_take f j 3 (by omega)]

/-! ## An equation per branch -/

/-- R152: the loop drops the first unread byte. -/
theorem iterate_of_magic_mismatch {s : State} (h11 : 11 ≤ s.size)
    (hm : ¬(byteAt s.content 0 = 0x5A ∧ byteAt s.content 1 = 0xA5)) : iterate s = .discard .resync (s.consume 1) := by
  have hmagic : le16 (s.peek hdr) 0 ≠ magic := by
    rwa [le16_peek_hdr s 0 (by decide), ne_eq, le16_eq_magic_iff]
  have hmin : minBuf = 11 := rfl
  rw [iterate, if_neg (by omega)]
  exact if_pos hmagic

/-- R154: the loop stops at a header whose frame is not buffered whole. -/
theorem iterate_of_total_gt {s : State} {psize : Nat} (hh : HeaderSays s.content psize) (h11 : 11 ≤ s.size)
    (hlt : s.size < 7 + psize + 4) : iterate s = .stop .awaitFullFrame := by
  have hmin : minBuf = 11 := rfl
  rw [iterate, if_neg (by omega)]
  simp only [le16_peek_hdr_magic hh, le16_peek_hdr_size hh, ne_eq, not_true_eq_false, if_false]
  exact if_pos hlt

/-- How an iteration ends on the whole candidate frame `f`, where `t` is the state with `f` consumed: the CRC check (R155), then
phase `DISPATCH` (R156 to R159). -/
def Iteration.ofFrame (f : List Byte) (psize : Nat) (t : State) : Iteration :=
  if crcOk f then
    match dispatch (byteAt f 6) (le16 f 4) psize (payloadOf f psize) with
    | .ok e => .emit e t
    | .error why => .discard why t
  else .discard .crcDiscard t

theorem Iteration.ofFrame_of_not_crcOk {f : List Byte} (hcrc : crcOk f = false) (psize : Nat) (t : State) :
    Iteration.ofFrame f psize t = .discard .crcDiscard t := by
  simp [Iteration.ofFrame, hcrc]

theorem Iteration.ofFrame_of_dispatch_error {f : List Byte} {psize : Nat} {why : Discard} (hcrc : crcOk f = true)
    (hd : dispatch (byteAt f 6) (le16 f 4) psize (payloadOf f psize) = .error why) (t : State) :
    Iteration.ofFrame f psize t = .discard why t := by
  simp [Iteration.ofFrame, hcrc, hd]

theorem Iteration.ofFrame_of_dispatch_ok {f : List Byte} {psize : Nat} {e : Event} (hcrc : crcOk f = true)
    (hd : dispatch (byteAt f 6) (le16 f 4) psize (payloadOf f psize) = .ok e) (t : State) :
    Iteration.ofFrame f psize t = .emit e t := by
  simp [Iteration.ofFrame, hcrc, hd]

/-- R155: a frame that is buffered whole is consumed, and the iteration ends as that frame says. -/
theorem iterate_of_total_le {s : State} {psize : Nat} (hh : HeaderSays s.content psize) (hle : 7 + psize + 4 ≤ s.size) :
    iterate s = .ofFrame (s.peek (7 + psize + 4)) psize (s.consume (7 + psize + 4)) := by
  have htype : byteAt (s.peek hdr) 6 = byteAt (s.peek (7 + psize + 4)) 6 := by
    rw [State.peek, State.peek, byteAt_take _ _ _ (by decide), byteAt_take _ _ _ (by omega)]
  have hseq : le16 (s.peek hdr) 4 = le16 (s.peek (7 + psize + 4)) 4 := by
    rw [le16_peek_hdr s 4 (by decide), State.peek, le16_take _ _ _ (by omega)]
  have hmin : minBuf = 11 := rfl
  rw [iterate, if_neg (by omega)]
  simp only [le16_peek_hdr_magic hh, le16_peek_hdr_size hh, htype, hseq, ne_eq, not_true_eq_false, if_false]
  exact if_neg (Nat.not_lt.mpr hle)

/-- An iteration at the whole candidate frame `f` consumes `f`. -/
theorem iterate_of_frame {s : State} {f rest : List Byte} {psize : Nat} (hc : s.content = f ++ rest)
    (hh : HeaderSays f psize) (hl : f.length = 7 + psize + 4) : iterate s = .ofFrame f psize (s.consume f.length) := by
  have hsize : s.size = f.length + rest.length := by
    rw [← s.content_length, hc, List.length_append]
  have hframe : s.peek f.length = f := by
    rw [State.peek, hc, List.take_left]
  have h := iterate_of_total_le (hc ▸ headerSays_append hh rest) (by omega : 7 + psize + 4 ≤ s.size)
  rwa [← hl, hframe] at h

/-! ## Everything an iteration can do -/

theorem dispatch_ne_resync (type : BitVec 8) (seq : BitVec 16) (psize : Nat) (p : List Byte) :
    dispatch type seq psize p ≠ .error .resync := by
  unfold dispatch
  split
  · split
    · exact nofun
    · simp only
      split <;> exact nofun
  · exact nofun

/-- The ways one iteration can end, with the reason for each (R160, R172). -/
inductive IterationEnds (s : State) : Iteration → Prop
  | short (hlt : s.size < 11) : IterationEnds s (.stop .seekMagic)
  | resync (h11 : 11 ≤ s.size) (hm : ¬(byteAt s.content 0 = 0x5A ∧ byteAt s.content 1 = 0xA5)) :
      IterationEnds s (.discard .resync (s.consume 1))
  | await (psize : Nat) (hh : HeaderSays s.content psize) (hlt : s.size < 7 + psize + 4) :
      IterationEnds s (.stop .awaitFullFrame)
  | drop (psize : Nat) (hh : HeaderSays s.content psize) (hle : 7 + psize + 4 ≤ s.size) (why : Discard)
      (hwhy : why ≠ .resync) : IterationEnds s (.discard why (s.consume (7 + psize + 4)))
  | event (psize : Nat) (hh : HeaderSays s.content psize) (hle : 7 + psize + 4 ≤ s.size) (e : Event) :
      IterationEnds s (.emit e (s.consume (7 + psize + 4)))

/-- A frame that is buffered whole is dropped or gives an event. -/
theorem IterationEnds.ofFrame {s : State} {psize : Nat} (hh : HeaderSays s.content psize)
    (hle : 7 + psize + 4 ≤ s.size) (f : List Byte) :
    IterationEnds s (.ofFrame f psize (s.consume (7 + psize + 4))) := by
  cases hcrc : crcOk f with
  | false =>
    rw [Iteration.ofFrame_of_not_crcOk hcrc]
    exact .drop psize hh hle _ (by decide)
  | true =>
    cases hd : dispatch (byteAt f 6) (le16 f 4) psize (payloadOf f psize) with
    | ok e =>
      rw [Iteration.ofFrame_of_dispatch_ok hcrc hd]
      exact .event psize hh hle e
    | error why =>
      rw [Iteration.ofFrame_of_dispatch_error hcrc hd]
      refine .drop psize hh hle why ?_
      rintro rfl
      exact dispatch_ne_resync _ _ _ _ hd

theorem iterate_ends (s : State) : IterationEnds s (iterate s) := by
  by_cases h11 : s.size < 11
  · rw [iterate_of_size_lt h11]
    exact .short h11
  by_cases hm : byteAt s.content 0 = 0x5A ∧ byteAt s.content 1 = 0xA5
  · obtain ⟨psize, hh⟩ := headerSays_of_magic (by rw [s.content_length]; omega) hm
    by_cases hlt : s.size < 7 + psize + 4
    · rw [iterate_of_total_gt hh (by omega) hlt]
      exact .await psize hh hlt
    · rw [iterate_of_total_le hh (by omega)]
      exact .ofFrame hh (by omega) _
  · rw [iterate_of_magic_mismatch (by omega) hm]
    exact .resync (by omega) hm

/-- A stop is one of the two of R160. -/
theorem iterate_stop_cases {s : State} {ph : Phase} (h : iterate s = .stop ph) :
    s.size < 11 ∨ ∃ psize, HeaderSays s.content psize ∧ s.size < 7 + psize + 4 := by
  have hends := iterate_ends s
  rw [h] at hends
  cases hends with
  | short hlt => exact .inl hlt
  | await psize hh hlt => exact .inr ⟨psize, hh, hlt⟩

end Sys2Proof.Machine
end

