-- ==== Sys2Proof/Proofs/ParseDrain.lean ====
section
/-!
PROOF. PARSE_DRAIN as a whole: what its first iteration makes of it, what it leaves unchanged, and how it ends
(spec/42_frame_parser.md rules R150 to R154, R160, R161 and R172).
-/

namespace Sys2Proof.Machine

/-! ## The first iteration -/

theorem exec_parseDrain_of_stop {s : State} {ph : Phase} (hf : s.faulted = false) (hi : iterate s = .stop ph) :
    exec .parseDrain s = .next { s with responses := s.responses ++ [⟨.ok, [0, 0, 0, 0]⟩] } := by
  rw [exec_parseDrain_of_not_faulted hf, runDrain_stop 0 s ph hi]
  rfl

theorem exec_parseDrain_of_discard {s s' : State} {why : Discard} (hr : s.RingWf) (hf : s.faulted = false)
    (hi : iterate s = .discard why s') : exec .parseDrain s = exec .parseDrain s' := by
  obtain ⟨n, h1, hn, rfl⟩ := iterate_discard s s' why hi
  have hf' : (s.consume n).faulted = false := hf
  rw [exec_parseDrain_of_not_faulted hf, exec_parseDrain_of_not_faulted hf', runDrain_discard 0 s hr why n hi h1 hn]

theorem exec_parseDrain_of_emit {s s' : State} {e : Event} (hf : s.faulted = false) (hi : iterate s = .emit e s') :
    exec .parseDrain s = .next { s' with hold := some ⟨e, 0⟩ } := by
  rw [exec_parseDrain_of_not_faulted hf, runDrain_emit 0 s s' e hi]

/-- Settles O42: the first iteration stops. -/
theorem shortBufferStopsTheDrain : Obligations.ShortBufferStopsTheDrain := fun _ hf hlt =>
  exec_parseDrain_of_stop hf (iterate_of_size_lt hlt)

/-- Settles O44: the first iteration stops, at the header or before it. -/
theorem incompleteFrameIsKept : Obligations.IncompleteFrameIsKept := by
  intro s psize hf hh hlt
  by_cases h11 : s.size < 11
  · exact shortBufferStopsTheDrain s hf h11
  · exact exec_parseDrain_of_stop hf (iterate_of_total_gt hh (by omega) hlt)

/-- Settles O43: the first iteration is the resync. -/
theorem magicMismatchDropsOneByte : Obligations.MagicMismatchDropsOneByte := by
  rintro s ⟨-, hr, -⟩ hf h11 hm
  exact exec_parseDrain_of_discard hr hf (iterate_of_magic_mismatch h11 hm)

/-! ## What a drain leaves unchanged -/

/-- A drain writes `TAIL`, `FULL`, and the event port or one response, on every state. -/
theorem runDrain_writes {m : Nat} {s t : State} (h : runDrain m s = .next t) :
    ∃ tail full, t = { s with tail := tail, full := full }.respondNat m
      ∨ ∃ e, t = { s with tail := tail, full := full, hold := some ⟨e, m⟩ } := by
  have hconsume : ∀ (u : State) (n : Nat), (∃ tail full, u = { s with tail := tail, full := full }) → 1 ≤ n → n ≤ u.size →
      ∃ tail full, u.consume n = { s with tail := tail, full := full } := by
    rintro _ n ⟨tail, full, rfl⟩ - -
    exact ⟨_, _, rfl⟩
  obtain ⟨_, ⟨tail, full, rfl⟩, ⟨-, -, rfl⟩ | ⟨-, e, -, -, -, -, -, -, -, rfl⟩⟩ :=
    drain_next _ hconsume _ m s t ⟨s.tail, s.full, rfl⟩ h
  · exact ⟨tail, full, .inl rfl⟩
  · exact ⟨tail, full, .inr ⟨e, rfl⟩⟩

/-- Settles O40: a faulted block only answers, and a drain that runs writes nothing else. -/
theorem drainFrame : Obligations.DrainFrame := by
  intro s t h
  rcases whenNotFaulted_next s t _ h with ⟨-, rfl⟩ | ⟨-, hrun⟩
  · exact ⟨rfl, rfl, rfl, rfl, rfl, rfl, rfl, .inr ⟨_, rfl⟩, fun _ => rfl⟩
  · obtain ⟨tail, full, rfl | ⟨e, rfl⟩⟩ := runDrain_writes hrun
    · exact ⟨rfl, rfl, rfl, rfl, rfl, rfl, rfl, .inr ⟨_, rfl⟩, fun _ => rfl⟩
    · exact ⟨rfl, rfl, rfl, rfl, rfl, rfl, rfl, .inl rfl, fun _ => rfl⟩

/-- Settles O41: the iteration's own reasons bound what it consumes, and no consume writes STATUS. -/
theorem drainConsumesOnlyWhatIsBuffered : Obligations.DrainConsumesOnlyWhatIsBuffered := by
  intro s
  have hends := iterate_ends s
  refine ⟨fun why t hi => ?_, fun e t hi => ?_, fun t h => ?_, fun t => acceptOffered_status s t⟩
  · rw [hi] at hends
    cases hends with
    | resync h11 hm => exact ⟨1, rfl, .inl ⟨rfl, rfl, h11, hm⟩⟩
    | drop psize hh hle _ hwhy => exact ⟨_, rfl, .inr ⟨hwhy, psize, hh, rfl, by omega, hle⟩⟩
  · rw [hi] at hends
    cases hends with
    | event psize hh hle => exact ⟨_, psize, rfl, hh, rfl, by omega, hle⟩
  · obtain ⟨-, -, hstatus, -⟩ := drainFrame s t h
    exact hstatus

/-! ## How a drain ends -/

/-- Settles O39: the fuel is enough, and a drain answers its count or holds. -/
theorem drainAlwaysEnds : Obligations.DrainAlwaysEnds := by
  rintro s ⟨-, hr, -⟩ hf hh
  rw [exec_parseDrain_of_not_faulted hf]
  obtain ⟨t, ht⟩ := drain_ends (s.size + 1) 0 s hr (by omega)
  refine ⟨t, ht, ?_⟩
  obtain ⟨tail, full, rfl | ⟨e, rfl⟩⟩ := runDrain_writes ht
  · exact .inl ⟨hh, rfl⟩
  · exact .inr ⟨e, rfl, rfl⟩

/-- A drain that ends with nothing on offer has stopped, and its answer has changed neither SIZE nor the unread bytes. -/
theorem runDrain_stopped {m : Nat} {s t : State} (h : runDrain m s = .next t) (hh : t.hold = none) :
    t.size < 11 ∨ ∃ psize, HeaderSays t.content psize ∧ t.size < 7 + psize + 4 := by
  obtain ⟨u, -, ⟨ph, hstop, rfl⟩ | ⟨-, e, -, -, -, -, -, -, -, rfl⟩⟩ :=
    drain_next (fun _ => True) (fun _ _ _ _ _ => trivial) _ m s t trivial h
  · exact (iterate_stop_cases hstop :)
  · exact nomatch hh

/-- Settles O49: both ways to the end are a drain with no fault recorded, and its two stops are those of O42 and O44. -/
theorem drainEndsShortOrAtALongerTotal : Obligations.DrainEndsShortOrAtALongerTotal := by
  rintro s t ⟨-, -, -, -, hhold⟩ hdrain ht
  obtain ⟨m, u, hrun, hf⟩ : ∃ m u, runDrain m u = .next t ∧ u.faulted = false := by
    rcases hdrain with ⟨-, hf, h⟩ | ⟨h, hh, hacc⟩
    · exact ⟨0, s, (exec_parseDrain_of_not_faulted hf).symm.trans h, hf⟩
    · obtain ⟨-, hst, -, -⟩ := hhold h hh
      exact ⟨_, _, (acceptOffered_of_hold hh).symm.trans hacc, by simp [State.faulted, hst]⟩
  have hft : t.faulted = false := by rwa [State.faulted, runDrain_status m u t hrun]
  have hstop := runDrain_stopped hrun ht
  refine ⟨hstop, ?_⟩
  rcases hstop with hlt | ⟨psize, hh, hlt⟩
  · exact shortBufferStopsTheDrain t hft hlt
  · exact incompleteFrameIsKept t psize hft hh hlt

end Sys2Proof.Machine
end

