-- ==== Sys2Proof/Proofs/BufferedFrame.lean ====
section
/-!
PROOF. PARSE_DRAIN with a frame, a part of one, or junk and a frame at the front of the buffer (spec/42_frame_parser.md rules
R155 to R159, R168 and R169).
-/

namespace Sys2Proof.Machine

/-! ## A whole frame -/

/-- Consuming the first part of the unread bytes leaves the rest. -/
theorem content_consume_append {s : State} {f rest : List Byte} (hr : s.RingWf) (hc : s.content = f ++ rest)
    (hne : f.length ≠ 0) : (s.consume f.length).content = rest := by
  have hle : f.length ≤ s.size := by
    rw [← s.content_length, hc, List.length_append]
    omega
  rw [s.content_consume f.length hr hle fun hz => hne hz.1, hc, List.drop_left]

/-- A whole candidate frame that gives no event is consumed, and the drain goes on behind it (R155 to R157). -/
theorem exec_parseDrain_drops_frame {s : State} {f rest : List Byte} {psize : Nat} {why : Discard} (hr : s.RingWf)
    (hf : s.faulted = false) (hc : s.content = f ++ rest) (hh : HeaderSays f psize) (hl : f.length = 7 + psize + 4)
    (hdrop : Iteration.ofFrame f psize (s.consume f.length) = .discard why (s.consume f.length)) :
    exec .parseDrain s = exec .parseDrain (s.consume f.length) ∧ (s.consume f.length).content = rest :=
  ⟨exec_parseDrain_of_discard hr hf ((iterate_of_frame hc hh hl).trans hdrop),
    content_consume_append hr hc (by omega)⟩

/-- Settles O45: the CRC check discards the frame. -/
theorem badChecksumDropsTheFrame : Obligations.BadChecksumDropsTheFrame := by
  rintro s f rest psize ⟨-, hr, -⟩ hf hc hh hl hcrc
  exact exec_parseDrain_drops_frame hr hf hc hh hl (Iteration.ofFrame_of_not_crcOk hcrc psize _)

/-- A finger-sample payload that is too short for its timestamp and count, or for its records, gives no event (R156, R157). -/
theorem dispatch_finger_too_short {psize : Nat} {p : List Byte} (seq : BitVec 16)
    (h : psize < 9 ∨ psize < 9 + 32 * (byteAt p 8).toNat) : ∃ why, dispatch typeFinger seq psize p = .error why := by
  rw [dispatch, if_pos rfl]
  by_cases h9 : psize < 9
  · exact ⟨_, if_pos h9⟩
  · have hcount : psize < 9 + 32 * (byteAt p 8).toNat := h.resolve_left h9
    exact ⟨_, (if_neg h9).trans (if_pos hcount)⟩

/-- The count byte of a payload stands at offset 15 of its frame (R72). -/
theorem byteAt_payloadOf_count (f : List Byte) {psize : Nat} (h : 9 ≤ psize) :
    byteAt (payloadOf f psize) 8 = byteAt f 15 := by
  rw [payloadOf, byteAt_take _ _ _ (by omega), byteAt_drop]
  rfl

/-- Settles O46: phase DISPATCH discards the frame. -/
theorem malformedFingerSampleIsDropped : Obligations.MalformedFingerSampleIsDropped := by
  rintro s f rest psize ⟨-, hr, -⟩ hf hc hh hl hcrc htype hshort
  have hpayload : psize < 9 ∨ psize < 9 + 32 * (byteAt (payloadOf f psize) 8).toNat := by
    by_cases h9 : psize < 9
    · exact .inl h9
    · rw [byteAt_payloadOf_count f (by omega)]
      exact hshort
  obtain ⟨why, hd⟩ := dispatch_finger_too_short (le16 f 4) hpayload
  have hdispatch : dispatch (byteAt f 6) (le16 f 4) psize (payloadOf f psize) = .error why := by
    rw [htype]
    exact hd
  exact exec_parseDrain_drops_frame hr hf hc hh hl (Iteration.ofFrame_of_dispatch_error hcrc hdispatch _)

/-- Settles O47: the frame dispatches to that event. -/
theorem unknownFrameIsOffered : Obligations.UnknownFrameIsOffered := by
  intro s f rest psize _ hf _ hc hh hl hcrc htype
  exact exec_parseDrain_of_emit hf (iterate_emit_of_dispatch hc hh hl hcrc (if_neg htype))

/-- An iteration at the frame of a payload that dispatches to an event emits it and consumes the frame. -/
theorem iterate_encodeFrame {s : State} {type : BitVec 8} {seq : BitVec 16} {payload rest : List Byte} {e : Event}
    (hlen : payload.length ≤ 65535) (hc : s.content = encodeFrame type seq payload ++ rest)
    (hd : dispatch type seq payload.length payload = .ok e) :
    iterate s = .emit e (s.consume (encodeFrame type seq payload).length) := by
  refine iterate_emit_of_dispatch hc (headerSays_encodeFrame type seq payload hlen) (encodeFrame_length type seq payload)
    (crcOk_encodeFrame type seq payload) ?_
  rwa [byteAt_encodeFrame_type, le16_encodeFrame_seq, payloadOf_encodeFrame]

/-- Settles O48: the payload dispatches to that event, whatever bytes follow its records. -/
theorem fingerSampleIsOffered : Obligations.FingerSampleIsOffered := by
  intro s seq timestamp records extra rest _ hf _ hcount hlen hc
  exact exec_parseDrain_of_emit hf
    (iterate_encodeFrame hlen hc (dispatch_fingerPayload seq timestamp records extra hcount))

/-! ## A part of a frame -/

/-- Settles O51: fewer than 11 bytes stop the drain, and so do 11 or more, which hold the header of the frame. -/
theorem partialFrameWaits : Obligations.PartialFrameWaits := by
  intro s e j hf he hj hc
  obtain ⟨type, seq, payload, hframe, hlen, -⟩ := e.frame_dispatches he
  rw [hframe] at hj hc
  have hsize : s.size = j := by
    rw [← s.content_length, hc, List.length_take]
    omega
  rw [encodeFrame_length] at hj
  by_cases h11 : s.size < 11
  · exact shortBufferStopsTheDrain s hf h11
  · have hh := headerSays_take (headerSays_encodeFrame type seq payload hlen) (by omega : 7 ≤ j)
    exact incompleteFrameIsKept s payload.length hf (hc ▸ hh) (by omega)

/-! ## Junk in front of a frame -/

theorem consume_consume (s : State) (m n : Nat) : (s.consume m).consume n = s.consume (m + n) := by
  simp only [State.consume, Nat.mod_add_mod, Nat.add_assoc]

/-- Where the magic pair stands at none of the first `n` unread positions, with 11 bytes buffered at each, the drain resyncs
over them one by one (R152). -/
theorem exec_parseDrain_resyncs {s : State} {n : Nat} (hr : s.RingWf) (hf : s.faulted = false) (h1 : 1 ≤ n)
    (hn : n + 10 ≤ s.size) (hpair : ∀ i < n, ¬(byteAt s.content i = 0x5A ∧ byteAt s.content (i + 1) = 0xA5)) :
    exec .parseDrain s = exec .parseDrain (s.consume n) := by
  induction n, h1 using Nat.le_induction with
  | base => exact exec_parseDrain_of_discard hr hf (iterate_of_magic_mismatch hn (hpair 0 Nat.one_pos))
  | succ n h1 ih =>
    have hz : ¬(n = 0 ∧ s.full = true) := by omega
    have h11 : 11 ≤ (s.consume n).size := by
      rw [s.size_consume n hr (by omega) hz]
      omega
    have hm : ¬(byteAt (s.consume n).content 0 = 0x5A ∧ byteAt (s.consume n).content 1 = 0xA5) := by
      rw [s.content_consume n hr (by omega) hz, byteAt_drop, byteAt_drop]
      exact hpair n (Nat.lt_succ_self n)
    calc exec .parseDrain s
        = exec .parseDrain (s.consume n) := ih (by omega) fun i hi => hpair i (Nat.lt_succ_of_lt hi)
      _ = exec .parseDrain ((s.consume n).consume 1) :=
        exec_parseDrain_of_discard (s.consume_ringWf n hr) hf (iterate_of_magic_mismatch h11 hm)
      _ = exec .parseDrain (s.consume (n + 1)) := by rw [consume_consume]

/-- Junk without the magic pair has none where it meets a frame either, since a frame does not begin with `A5`. -/
theorem no_pair_before_frame {junk following : List Byte} (hframe : byteAt following 0 = 0x5A)
    (h : ∀ i, i + 1 < junk.length → ¬(byteAt junk i = 0x5A ∧ byteAt junk (i + 1) = 0xA5)) {i : Nat}
    (hi : i < junk.length) :
    ¬(byteAt (junk ++ following) i = 0x5A ∧ byteAt (junk ++ following) (i + 1) = 0xA5) := by
  rcases Nat.lt_or_eq_of_le (Nat.succ_le_of_lt hi) with hinside | hlast
  · rw [byteAt_append_left junk following i hi, byteAt_append_left junk following (i + 1) hinside]
    exact h i hinside
  · rintro ⟨-, hsecond⟩
    have hread : byteAt (junk ++ following) junk.length = 0x5A := (byteAt_append_right junk following 0).trans hframe
    rw [← hlast] at hread
    exact absurd (hread.symm.trans hsecond) (by decide)

/-- Settles O50: no junk byte opens the magic pair, and a frame of at least 11 bytes stands behind each. -/
theorem junkIsResyncedOver : Obligations.JunkIsResyncedOver := by
  rintro s junk payload rest type seq ⟨-, hr, -⟩ hf hne - hc hpair
  rw [List.append_assoc] at hc
  have hpos : 0 < junk.length := List.length_pos_of_ne_nil hne
  have hsize : junk.length + 10 ≤ s.size := by
    rw [← s.content_length, hc, List.length_append, List.length_append, encodeFrame_length]
    omega
  refine ⟨exec_parseDrain_resyncs hr hf hpos hsize fun i hi => ?_, content_consume_append hr hc (by omega)⟩
  rw [hc]
  exact no_pair_before_frame rfl hpair hi

end Sys2Proof.Machine
end

