-- ==== Sys2Proof/Proofs/FrameBuilder.lean ====
section
/-!
PROOF. The frame builder (spec/43_frame_builder.md rules R190 to R193): what holds of every encoded frame, and the heartbeat
frame byte by byte.
-/

namespace Sys2Proof.Machine

/-- Settles O34: the length, the builder's own trailer and the header, each read back from the encoded frame. -/
theorem encodedFramesPassTheCheck : Obligations.EncodedFramesPassTheCheck :=
  fun type seq payload hlen =>
    ⟨encodeFrame_length type seq payload, crcOk_encodeFrame type seq payload, headerSays_encodeFrame type seq payload hlen⟩

/-- The bytes of a heartbeat in front of its CRC (R193). -/
theorem frameBody_heartbeat (seq : BitVec 16) :
    frameBody typeHeartbeat seq hbPayload =
      [0x5A, 0xA5, 0x01, 0x00, seq.extractLsb' 0 8, seq.extractLsb' 8 8, 0x02, 0x01] := rfl

theorem exec_buildHeartbeat {s : State} (seq : BitVec 16) (hf : s.faulted = false) :
    exec (.buildHeartbeat seq) s = .next (s.respond .ok (heartbeatFrame seq)) :=
  whenNotFaulted_run s _ hf

/-- Settles O35: the answer is the body and its CRC, and the CRC's field is its four bytes, low first. -/
theorem heartbeatIsTheTwelveBytes : Obligations.HeartbeatIsTheTwelveBytes := by
  rintro s seq body c hf hbody rfl
  rw [exec_buildHeartbeat seq hf, heartbeatFrame, encodeFrame, frameBody_heartbeat, ← hbody, bytesLE32_eq_extractLsb']
  rfl

end Sys2Proof.Machine
end

