-- ==== Sys2Proof/Proofs/Control.lean ====
section
/-!
PROOF. Control and observation (spec/44_control.md): what NOP answers (R200).
-/

namespace Sys2Proof.Machine

/-- Settles O36: behind the fault check NOP only answers, and an answer is appended to the responses. -/
theorem nopAnswersOk : Obligations.NopAnswersOk :=
  fun s hf => whenNotFaulted_run s _ hf

end Sys2Proof.Machine
end

