-- ==== Sys2Proof/Proofs/Faults.lean ====
section
/-!
PROOF. Faults (spec/60_exceptions.md): the block without a host move (R235), what raising a fault records (R220, R221), and
which commands can raise one (R222).
-/

namespace Sys2Proof.Machine

/-! ## No move from the host -/

/-- A host without moves gives none, with an event on offer or without. -/
theorem nextMove_of_moves_nil {s : State} (hm : s.moves = []) : s.nextMove = none := by
  unfold State.nextMove
  rw [hm]
  split <;> rfl

/-- Settles O12: before the first reset and after it, a step that does anything takes a move. -/
theorem idleBlockKeepsItsState : Obligations.IdleBlockKeepsItsState := by
  intro s hm
  rcases step_cases s with h | ⟨-, m, rest, hmove, -⟩ | ⟨-, m, rest, hmove, -⟩
  · exact h
  · cases hm.symm.trans hmove
  · cases (nextMove_of_moves_nil hm).symm.trans hmove

/-! ## What a fault records -/

/-- Settles O15: the code and the status are the cause's own (R221). -/
theorem raisingRecordsTheFirstCause : Obligations.RaisingRecordsTheFirstCause := by
  intro s c code status hc
  obtain ⟨rfl, rfl⟩ : code = c.code ∧ status = c.response := by
    rcases hc with ⟨rfl, rfl, rfl⟩ | ⟨rfl, rfl, rfl⟩ | ⟨rfl, rfl, rfl⟩ <;> exact ⟨rfl, rfl⟩
  exact ⟨fun hf => State.raise_recorded hf c, fun hf => if_pos hf, rfl⟩

/-! ## Which commands fault -/

/-- Of the instructions only RB_READ and RB_CONSUME, which fault, and RESET, which clears a fault, write STATUS. -/
theorem exec_status {i : Instr} {s t : State} (hread : ∀ len, i ≠ .rbRead len) (hconsume : ∀ len, i ≠ .rbConsume len)
    (hreset : i ≠ .reset) (h : exec i s = .next t) : t.status = s.status := by
  cases hanswers : readsOnly i
  · cases i with
    | rbPush d =>
      obtain ⟨-, hstatus, -⟩ := pushFrame s t d h
      exact hstatus
    | rbRead len => exact absurd rfl (hread len)
    | rbConsume len => exact absurd rfl (hconsume len)
    | parseDrain =>
      obtain ⟨-, -, hstatus, -⟩ := drainFrame s t h
      exact hstatus
    | reset => exact absurd rfl hreset
    | nop | rbPeek | rbSize | rbFree | rbCap | crcCompute | crcValidate | buildHeartbeat | regRead => cases hanswers
  · obtain ⟨st, d, -, hnext⟩ := (exec_answersOnly i s hanswers).next
    rw [hnext] at h
    cases h
    rfl

theorem faulted_of_status_eq {s t : State} (h : t.status = s.status) : t.faulted = s.faulted := by
  rw [State.faulted, h, State.faulted]

/-- Settles O17: RESET leaves no fault recorded, and what writes no STATUS records none. -/
theorem onlyConsumingCommandsFault : Obligations.OnlyConsumingCommandsFault := by
  refine ⟨fun i s t hread hconsume hf h => ?_, fun s t h => faulted_of_status_eq (acceptOffered_status s t h)⟩
  by_cases hreset : i = .reset
  · subst hreset
    cases h
    simp [State.faulted]
  · exact (faulted_of_status_eq (exec_status hread hconsume hreset h)).trans hf

end Sys2Proof.Machine
end

