-- ==== Sys2Proof/Proofs/HostMoves.lean ====
section
/-!
PROOF. The move a step takes or leaves, and the commands it refuses (spec/70_reset_and_hazards.md rules R254, R265 and R266,
spec/30_encoding.md rule R66).
-/

namespace Sys2Proof.Machine

/-! ## Before the first reset (R254) -/

/-- Before the first reset a step is the host's first move. -/
theorem step_before_reset {s : State} {m : HostMove} {rest : List HostMove} (hi : s.initialised = false)
    (hm : s.moves = m :: rest) : step s = takeMoveBeforeReset m { s with moves := rest } := by
  simp [step, stepBeforeReset, hi, hm]

/-- Settles O8: the host's first move is the command, which is refused. -/
theorem commandBeforeFirstResetIsRefused : Obligations.CommandBeforeFirstResetIsRefused :=
  fun _ _ _ _ hi hm => step_before_reset hi hm

/-! ## While an event is on offer (R266) -/

/-- Among commands there is neither an acceptance nor the reset input. -/
theorem firstSignal_of_commands {ms : List HostMove} (h : ∀ m ∈ ms, ∃ w d, m = .command w d) : firstSignal ms = none := by
  induction ms with
  | nil => rfl
  | cons m ms ih =>
    obtain ⟨⟨w, d, rfl⟩, hms⟩ := List.forall_mem_cons.mp h
    rw [firstSignal, ih hms]

/-- After the first reset a step without a move to take changes nothing. -/
theorem step_of_nextMove_none {s : State} (hi : s.initialised = true) (hm : s.nextMove = none) : step s = .next s := by
  simp [step, stepAfterReset, hi, hm]

/-- Settles O10: on a hold the block looks for an acceptance or the reset input, and none is behind the commands. -/
theorem holdLastsUntilTheHostActs : Obligations.HoldLastsUntilTheHostActs := by
  intro s h hi hh hcommands
  have hm : s.nextMove = none := by
    rw [State.nextMove, hh]
    exact firstSignal_of_commands hcommands
  exact step_of_nextMove_none hi hm

/-! ## What a step refuses -/

theorem drain_ne_refused (fuel m : Nat) (s : State) (r : Refusal) : drain fuel m s ≠ .refused r := by
  induction fuel generalizing s with
  | zero => exact nofun
  | succ fuel ih =>
    rw [drain]
    split
    · exact nofun
    · exact ih _
    · exact nofun

/-- No instruction and no illegal word is refused. -/
theorem ExecEnds.ne_refused {s : State} {o : Result} (h : ExecEnds s o) (r : Refusal) : o ≠ .refused r := by
  cases h with
  | respond | raise | consume | reset => exact nofun
  | push d => split <;> exact nofun
  | drain => exact drain_ne_refused _ 0 s r

/-- A command is refused for its data length alone: with the length its word requires, it runs or is an illegal word. -/
theorem issue_refused {w : Word} {d : List Byte} {s : State} {r : Refusal} (h : issue w d s = .refused r) :
    r = .dataLength ∧ d.length ≠ dataLength w := by
  by_cases hd : d.length = dataLength w
  · have hends : ExecEnds s (issue w d s) := by
      by_cases hl : LegalWord w
      · obtain ⟨i, hdec⟩ := (legalWord_iff hd).mp hl
        rw [issue_of_decodeCommand hdec]
        exact exec_ends i s
      · rw [issue_of_not_legalWord hd hl]
        exact illegalCommand_ends (opcOf w) s
    exact absurd h (hends.ne_refused r)
  · rw [issue_of_length_ne hd] at h
    cases h
    exact ⟨rfl, hd⟩

theorem acceptOffered_ne_refused (s : State) (r : Refusal) : acceptOffered s ≠ .refused r := by
  unfold acceptOffered
  split
  · exact nofun
  · exact drain_ne_refused _ _ _ r

/-- Settles O58, by the move taken: an acceptance and the reset input are never refused, and a command after the first reset
only for its data length. -/
theorem stepRefusesOnlyEarlyOrMisfitCommands : Obligations.StepRefusesOnlyEarlyOrMisfitCommands := by
  intro s r hr
  rcases step_cases s with h | ⟨hi, m, rest, hm, h⟩ | ⟨hi, m, rest, hm, h⟩ <;> rw [h] at hr
  · cases hr
  · cases m with
    | command w d =>
      cases hr
      exact .inl ⟨hi, rfl, w, d, rest, hm⟩
    | acceptEvent => cases hr
    | resetInput => cases hr
  · cases m with
    | command w d =>
      obtain ⟨hname, hd⟩ := issue_refused hr
      exact .inr ⟨hi, hname, w, d, rest, hm, hd⟩
    | acceptEvent => exact absurd hr (acceptOffered_ne_refused _ r)
    | resetInput => cases hr

end Sys2Proof.Machine
end

