-- ==== Sys2Proof/Proofs/Reset.lean ====
section
/-!
PROOF. The reset state and its two sources (spec/10_state.md rule R35, spec/70_reset_and_hazards.md rules R250 and R252,
spec/44_control.md rule R203).
-/

namespace Sys2Proof.Machine

/-! ## The empty buffer -/

/-- A buffer that is not full and whose indices meet is empty (R23). -/
theorem State.size_eq_zero {s : State} (hf : s.full = false) (hi : s.head = s.tail) : s.size = 0 := by
  simp [State.size, hf, hi]

theorem State.content_eq_nil {s : State} (h : s.size = 0) : s.content = [] :=
  List.eq_nil_of_length_eq_zero (s.content_length.trans h)

/-! ## The two sources of reset -/

theorem afterReset_applyReset (s : State) : AfterReset s s.applyReset :=
  ⟨rfl, rfl, rfl, rfl, rfl, rfl, State.content_eq_nil (State.size_eq_zero rfl rfl), rfl⟩

/-- The reset input is taken at once, before the first reset and on a hold too (R250, R254). -/
theorem step_resetInput {s : State} {rest : List HostMove} (hm : s.moves = .resetInput :: rest) :
    step s = .next (assertReset { s with moves := rest }) := by
  rcases Bool.eq_false_or_eq_true s.initialised with hi | hi
  · exact step_of_nextMove hi (nextMove_resetInput s rest hm)
  · exact step_before_reset hi hm

/-- The reset input marks a drain as abandoned when it finds one on hold, or marked already. -/
theorem assertReset_abandoned_iff (s : State) :
    (assertReset s).abandoned = true ↔ s.initialised = true ∧ (s.hold ≠ none ∨ s.abandoned = true) := by
  simp [Option.isSome_iff_ne_none]

/-- An abandoned command never responds, so the run goes on (R269). -/
theorem not_runEnded_of_abandoned {s : State} (h : s.abandoned = true) : ¬s.RunEnded := by
  rintro ⟨⟨-, hnot⟩, -⟩
  exact absurd h (by simp [hnot])

/-- Settles O9: both sources apply the reset state, and of the other fields each writes only its own. -/
theorem resetSourcesGiveTheResetState : Obligations.ResetSourcesGiveTheResetState := by
  refine fun s => ⟨fun rest hm => ?_, s.applyReset.respond .ok [], rfl, afterReset_applyReset s, rfl, rfl, rfl, rfl⟩
  have habandoned := assertReset_abandoned_iff { s with moves := rest }
  exact ⟨_, step_resetInput hm, afterReset_applyReset s, rfl, rfl, rfl, habandoned,
    fun hi hh => not_runEnded_of_abandoned (habandoned.mpr ⟨hi, .inl hh⟩)⟩

/-! ## The state after reset -/

theorem resetAt_size (cap : Nat) : (State.resetAt cap).size = 0 :=
  State.size_eq_zero rfl rfl

theorem resetAt_wf {cap : Nat} (h1 : 1 ≤ cap) (hmax : cap ≤ 4294967295) : (State.resetAt cap).Wf :=
  .of_reset ⟨h1, hmax⟩ rfl rfl rfl rfl rfl rfl

/-- The capacity of a block is in its range (R8), by the type of the constant it is taken from. -/
theorem config_cap_range : 1 ≤ Config.cap ∧ Config.cap ≤ 4294967295 :=
  ⟨Nat.le_add_left 1 _, Config.capLessOne.isLt⟩

/-- Settles O53: the reset state is an empty buffer without a fault, for every capacity a block can have. -/
theorem resetStateMeetsTheInvariants : Obligations.ResetStateMeetsTheInvariants := by
  refine ⟨fun cap h1 hmax => ⟨resetAt_wf h1 hmax, ⟨rfl, resetAt_size cap, rfl⟩, resetAt_size cap, ?_, nofun⟩, ?_⟩
  · rw [State.free, resetAt_size]
    rfl
  · obtain ⟨h1, hmax⟩ := config_cap_range
    exact ⟨Config.cap, h1, hmax, rfl⟩

end Sys2Proof.Machine
end
